-- ==== Sys2Proof/Word.lean ====
section
/-! DEFINITION. The cell: the one unit of data of the core (00_scope.md R7, 20_memory.md R41).

A cell is a signed integer, never a pattern of bits: the spec forbids a byte layout (R41), and no instruction shifts,
masks or extends it (R7). So a cell is an `Int`, and its width is a predicate on the value. -/

namespace Sys2Proof

/-- CELL_MIN for cells of `W` bits: `-2^(W-1)` (00_scope.md R6, log 10). -/
def cellMinOf (W : Nat) : Int := -((2 ^ (W - 1) : Nat) : Int)

/-- CELL_MAX for cells of `W` bits: `2^(W-1) - 1` (00_scope.md R6, log 10). -/
def cellMaxOf (W : Nat) : Int := ((2 ^ (W - 1) : Nat) : Int) - 1

/-- `fits(v)` of R7 for cells of `W` bits. -/
abbrev fitsWidth (W : Nat) (v : Int) : Prop := cellMinOf W ≤ v ∧ v ≤ cellMaxOf W

end Sys2Proof
end

