-- ==== Sys2Proof/Config.lean ====
section
/-! DEFINITION. The parameters of one core (00_scope.md R2 and R6), fixed when an instance is constructed (10_state.md R30),
and the one value the spec leaves open. -/

namespace Sys2Proof

/-- The two variants of the core (R2); the parameter VARIANT of R6. -/
inductive Variant where
  /-- `intcode-narrow`: 32-bit cells, Position and Immediate modes, opcodes 1 to 8 and 99. -/
  | narrow
  /-- `intcode-extended`: 64-bit cells, Relative mode and opcode 9 added. -/
  | extended
deriving DecidableEq, Repr

namespace Variant

/-- The ISA strings of 00_scope.md R3. -/
def isaName : Variant → String
  | .narrow => "intcode-narrow"
  | .extended => "intcode-extended"

/-- `W`: 32 if NARROW, 64 if EXTENDED (R6). -/
def width : Variant → Nat
  | .narrow => 32
  | .extended => 64

/-- CELL_MIN of R6. -/
def cellMin (v : Variant) : Int := cellMinOf v.width

/-- CELL_MAX of R6. -/
def cellMax (v : Variant) : Int := cellMaxOf v.width

/-- `fits(x)` of R7: the value can stand in a cell of this variant. -/
abbrev fits (v : Variant) (x : Int) : Prop := fitsWidth v.width x

end Variant

/-- What is fixed when an instance is constructed and never changes after (10_state.md R30). -/
structure Config where
  /-- VARIANT -/
  variant  : Variant
  /-- CAPACITY: the minimum memory size asked for (0 on NARROW) -/
  capacity : Nat
  /-- MEM_SIZE: the number of cells (70_reset_and_hazards.md R201) -/
  memSize  : Nat
deriving DecidableEq, Repr

/-- The free value of log 9: what `pc` becomes where a sequential advance gives a sum past CELL_MAX, which 10_state.md R21
and R22 fix differently. It has no body, so no proof can know it. It is a function of the variant and the sum, since a step
depends on the state and the configuration alone (40_pipeline.md R92). DESIGN CHOICE. -/
opaque Config.pcPastMax : Variant → Nat → Nat

end Sys2Proof
end

