-- ==== Sys2Proof/Syntax.lean ====
section
/-! DEFINITION. The instructions: one constructor of `Instr` per row of spec/opcode_table.json (30_encoding.md R67).

A read operand may use any of the three modes, a write operand Position or Relative only (R66): the two types `Src` and
`Dst` say so, so an Immediate write target, which the decoder rejects (R69), is no term. Each operand carries its
operand word (00_scope.md R11). What still needs a check (Relative mode or ARB on the narrow variant, an operand word
that does not fit a cell) is in WellFormed. -/

namespace Sys2Proof

/-- The three addressing modes (20_memory.md R46 to R48). -/
inductive Mode where
  /-- digit 0 -/
  | position
  /-- digit 1 -/
  | immediate
  /-- digit 2, EXTENDED only -/
  | relative
deriving DecidableEq, Repr

/-- The modes a write operand may use (30_encoding.md R66). -/
inductive TargetMode where
  | position
  | relative
deriving DecidableEq, Repr

/-- What the decoder makes of one instruction word: the operation and one mode per operand (30_encoding.md R60). -/
inductive Form where
  | add (m1 m2 : Mode) (m3 : TargetMode)
  | mul (m1 m2 : Mode) (m3 : TargetMode)
  | inp (m1 : TargetMode)
  | out (m1 : Mode)
  | jt (m1 m2 : Mode)
  | jf (m1 m2 : Mode)
  | lt (m1 m2 : Mode) (m3 : TargetMode)
  | eq (m1 m2 : Mode) (m3 : TargetMode)
  | arb (m1 : Mode)
  | halt
deriving DecidableEq, Repr

/-- A read operand: its mode and its operand word (00_scope.md R11). -/
inductive Src where
  /-- `[n]`: the cell at address `n` -/
  | pos (n : Int)
  /-- `#n`: the word itself -/
  | imm (n : Int)
  /-- `[rb+n]`: the cell at address `rb + n` -/
  | rel (n : Int)
deriving DecidableEq, Repr

/-- A write operand: its mode and its operand word. -/
inductive Dst where
  /-- `[n]`: the cell at address `n` -/
  | pos (n : Int)
  /-- `[rb+n]`: the cell at address `rb + n` -/
  | rel (n : Int)
deriving DecidableEq, Repr

/-- The instructions (30_encoding.md R67), operands in the order of their mode digits. -/
inductive Instr where
  /-- ADD, opcode 1 (41_alu.md R100) -/
  | add (a b : Src) (t : Dst)
  /-- MUL, opcode 2 (R101) -/
  | mul (a b : Src) (t : Dst)
  /-- IN, opcode 3 (42_io.md R120) -/
  | inp (t : Dst)
  /-- OUT, opcode 4 (R121) -/
  | out (a : Src)
  /-- JT, opcode 5 (43_control.md R140) -/
  | jt (c g : Src)
  /-- JF, opcode 6 (R141) -/
  | jf (c g : Src)
  /-- LT, opcode 7 (41_alu.md R102) -/
  | lt (a b : Src) (t : Dst)
  /-- EQ, opcode 8 (R103) -/
  | eq (a b : Src) (t : Dst)
  /-- ARB, opcode 9, EXTENDED only (44_relative_base.md R160) -/
  | arb (d : Src)
  /-- HALT, opcode 99 (43_control.md R142) -/
  | halt
deriving DecidableEq, Repr

end Sys2Proof
end

