-- ==== Sys2Proof/WellFormed.lean ====
section
/-! DEFINITION. Which terms of `Instr` are instructions of a given variant: every operand word fits a cell
(30_encoding.md R60), Relative mode and ARB stand in the extended variant only (R67, R68). That a write operand is not
Immediate (R69) needs no check: `Dst` has no such form. -/

namespace Sys2Proof

/-- A read operand is legal in the variant. -/
def Src.wf (v : Variant) : Src → Bool
  | .pos n => decide (v.fits n)
  | .imm n => decide (v.fits n)
  | .rel n => decide (v = .extended) && decide (v.fits n)

/-- A write operand is legal in the variant. -/
def Dst.wf (v : Variant) : Dst → Bool
  | .pos n => decide (v.fits n)
  | .rel n => decide (v = .extended) && decide (v.fits n)

/-- An instruction is legal in the variant. -/
def Instr.wf (v : Variant) : Instr → Bool
  | .add a b t => a.wf v && b.wf v && t.wf v
  | .mul a b t => a.wf v && b.wf v && t.wf v
  | .inp t => t.wf v
  | .out a => a.wf v
  | .jt c g => c.wf v && g.wf v
  | .jf c g => c.wf v && g.wf v
  | .lt a b t => a.wf v && b.wf v && t.wf v
  | .eq a b t => a.wf v && b.wf v && t.wf v
  | .arb d => decide (v = .extended) && d.wf v
  | .halt => true

end Sys2Proof
end

