-- ==== Sys2Proof/Decode.lean ====
section
/-! DEFINITION. The decoder (30_encoding.md R60 to R71, 40_pipeline.md R83), total on every integer and every list of
cells, rejecting by name; and after it the encoder (R75).

The checks stand in the order of R83: the sign, the opcode, the mode digits in operand order, excess digits, an Immediate
write target. -/

namespace Sys2Proof

/-! What the decoder and the encoder read off an instruction. -/

/-- The mode of a read operand. -/
def Src.mode : Src → Mode
  | .pos _ => .position
  | .imm _ => .immediate
  | .rel _ => .relative

/-- The operand word of a read operand. -/
def Src.word : Src → Int
  | .pos n => n
  | .imm n => n
  | .rel n => n

/-- The mode of a write operand. -/
def Dst.mode : Dst → TargetMode
  | .pos _ => .position
  | .rel _ => .relative

/-- The operand word of a write operand. -/
def Dst.word : Dst → Int
  | .pos n => n
  | .rel n => n

/-- The operation and the modes of an instruction, without its operand words. -/
def Instr.form : Instr → Form
  | .add a b t => .add a.mode b.mode t.mode
  | .mul a b t => .mul a.mode b.mode t.mode
  | .inp t => .inp t.mode
  | .out a => .out a.mode
  | .jt c g => .jt c.mode g.mode
  | .jf c g => .jf c.mode g.mode
  | .lt a b t => .lt a.mode b.mode t.mode
  | .eq a b t => .eq a.mode b.mode t.mode
  | .arb d => .arb d.mode
  | .halt => .halt

/-- The operand words of an instruction, first operand first (30_encoding.md R60). -/
def Instr.operandWords : Instr → List Int
  | .add a b t => [a.word, b.word, t.word]
  | .mul a b t => [a.word, b.word, t.word]
  | .inp t => [t.word]
  | .out a => [a.word]
  | .jt c g => [c.word, g.word]
  | .jf c g => [c.word, g.word]
  | .lt a b t => [a.word, b.word, t.word]
  | .eq a b t => [a.word, b.word, t.word]
  | .arb d => [d.word]
  | .halt => []

/-- The operand count `n` of R60: 0 for F0, 1 for FW and FR, 2 for FRR, 3 for FRRW (30_encoding.md R65). -/
def Form.operands : Form → Nat
  | .add _ _ _ => 3
  | .mul _ _ _ => 3
  | .inp _ => 1
  | .out _ => 1
  | .jt _ _ => 2
  | .jf _ _ => 2
  | .lt _ _ _ => 3
  | .eq _ _ _ => 3
  | .arb _ => 1
  | .halt => 0

/-- The length `L = 1 + n` in cells (30_encoding.md R60, R65). -/
def Form.length (f : Form) : Nat := 1 + f.operands

/-- The length of an instruction in cells. -/
def Instr.length (i : Instr) : Nat := i.form.length

/-- MODES of R6: the legal mode digits. -/
def Variant.modes : Variant → List Nat
  | .narrow => [0, 1]
  | .extended => [0, 1, 2]

/-- OPCODES of R6: the legal opcodes. -/
def Variant.opcodes : Variant → List Nat
  | .narrow => [1, 2, 3, 4, 5, 6, 7, 8, 99]
  | .extended => [1, 2, 3, 4, 5, 6, 7, 8, 9, 99]

/-! Errors. -/

/-- The error codes (60_exceptions.md R171); `ErrorCode.number` gives the spec's numbers. -/
inductive ErrorCode where
  /-- construction only (70_reset_and_hazards.md R208) -/
  | malformedProgramText
  /-- `w < 0`, or `w mod 100` not in OPCODES -/
  | unknownOpcode
  /-- a used mode digit not in MODES, or a nonzero digit beyond the operands -/
  | unknownMode
  /-- `pc + L > MEM_SIZE` -/
  | missingOperand
  /-- a Position or Relative operand outside `[0, MEM_SIZE)` -/
  | invalidAddress
  /-- a write operand in Immediate mode -/
  | immediateWrite
  /-- ADD, MUL or ARB result that does not fit a cell -/
  | arithmeticOverflow
  /-- a taken jump to a negative target -/
  | invalidJumpTarget
deriving DecidableEq, Repr

/-- The code numbers of R171. -/
def ErrorCode.number : ErrorCode → Nat
  | .malformedProgramText => 1
  | .unknownOpcode => 2
  | .unknownMode => 3
  | .missingOperand => 4
  | .invalidAddress => 5
  | .immediateWrite => 6
  | .arithmeticOverflow => 7
  | .invalidJumpTarget => 8

/-- `Error(code, {operand, value})` as a stage raises it (00_scope.md R9, 60_exceptions.md R172); `at_pc` is added when
the error is taken. -/
structure Trap where
  code    : ErrorCode
  operand : Nat
  value   : Int
deriving DecidableEq, Repr

/-- `digit(w, k)`: the decimal digit of weight `10^k` (00_scope.md R7). -/
def digit (n k : Nat) : Nat := n / 10 ^ k % 10

/-- The mode a legal mode digit selects (30_encoding.md R63): 0 Position, 1 Immediate, 2 Relative. -/
def Mode.ofDigit (d : Nat) : Mode :=
  if d = 0 then .position else if d = 1 then .immediate else .relative

/-- Mode digit `m_k = digit(w, k+1)` of operand `k` (R63), checked against MODES (R83 step 3, R68). -/
def decodeMode (v : Variant) (n k : Nat) : Except Trap Mode :=
  if digit n (k + 1) ∈ v.modes then .ok (Mode.ofDigit (digit n (k + 1)))
  else .error ⟨.unknownMode, k, digit n (k + 1)⟩

/-- No nonzero digit beyond the operands: `w div 100 < 10^n` (R64, R83 step 4). -/
def decodeNoExcess (n operands : Nat) : Except Trap Unit :=
  if n / 100 < 10 ^ operands then .ok () else .error ⟨.unknownMode, 0, n⟩

/-- The mode of write operand `k`, Immediate rejected (R69, R83 step 5). -/
def decodeTarget (n k : Nat) : Mode → Except Trap TargetMode
  | .position => .ok .position
  | .immediate => .error ⟨.immediateWrite, k, n⟩
  | .relative => .ok .relative

/-- Format F0: no operands (R65). -/
def decodeF0 (n : Nat) (f : Form) : Except Trap Form := do
  decodeNoExcess n 0
  return f

/-- Format FR: one read operand (R65). -/
def decodeFR (v : Variant) (n : Nat) (f : Mode → Form) : Except Trap Form := do
  let m1 ← decodeMode v n 1
  decodeNoExcess n 1
  return f m1

/-- Format FW: one write operand (R65). -/
def decodeFW (v : Variant) (n : Nat) (f : TargetMode → Form) : Except Trap Form := do
  let m1 ← decodeMode v n 1
  decodeNoExcess n 1
  let t1 ← decodeTarget n 1 m1
  return f t1

/-- Format FRR: two read operands (R65). -/
def decodeFRR (v : Variant) (n : Nat) (f : Mode → Mode → Form) : Except Trap Form := do
  let m1 ← decodeMode v n 1
  let m2 ← decodeMode v n 2
  decodeNoExcess n 2
  return f m1 m2

/-- Format FRRW: two read operands and a write operand (R65). -/
def decodeFRRW (v : Variant) (n : Nat) (f : Mode → Mode → TargetMode → Form) : Except Trap Form := do
  let m1 ← decodeMode v n 1
  let m2 ← decodeMode v n 2
  let m3 ← decodeMode v n 3
  decodeNoExcess n 3
  let t3 ← decodeTarget n 3 m3
  return f m1 m2 t3

/-- A non-negative word, by its opcode `w mod 100` (R61, R67). The opcode is looked up first (R83 step 2). -/
def decodeNat (v : Variant) (n : Nat) : Except Trap Form :=
  if n % 100 ∈ v.opcodes then
    match n % 100 with
    | 1 => decodeFRRW v n .add
    | 2 => decodeFRRW v n .mul
    | 3 => decodeFW v n .inp
    | 4 => decodeFR v n .out
    | 5 => decodeFRR v n .jt
    | 6 => decodeFRR v n .jf
    | 7 => decodeFRRW v n .lt
    | 8 => decodeFRRW v n .eq
    | 9 => decodeFR v n .arb
    | 99 => decodeF0 n .halt
    | _ => .error ⟨.unknownOpcode, 0, n⟩
  else .error ⟨.unknownOpcode, 0, n⟩

/-- DECODE of one instruction word (40_pipeline.md R83). A negative word encodes nothing (30_encoding.md R70). -/
def decodeWord (v : Variant) (w : Int) : Except Trap Form :=
  if w < 0 then .error ⟨.unknownOpcode, 0, w⟩ else decodeNat v w.toNat

/-- Why a list of cells is no instruction. -/
inductive Reject where
  /-- the list is empty: no instruction word -/
  | noWord
  /-- the word is illegal -/
  | illegal (t : Trap)
  /-- the word is legal and fewer cells follow it than it has operands (40_pipeline.md R84) -/
  | missing
deriving DecidableEq, Repr

/-- A read operand from its mode and its operand word (00_scope.md R11). -/
def Src.ofMode : Mode → Int → Src
  | .position, n => .pos n
  | .immediate, n => .imm n
  | .relative, n => .rel n

/-- A write operand from its mode and its operand word. -/
def Dst.ofMode : TargetMode → Int → Dst
  | .position, n => .pos n
  | .relative, n => .rel n

/-- Takes one operand word for each operand off the front of the cells, or none where they are too few. -/
def Form.takeOperands : Form → List Int → Option (Instr × List Int)
  | .add m1 m2 m3, x :: y :: z :: r => some (.add (.ofMode m1 x) (.ofMode m2 y) (.ofMode m3 z), r)
  | .mul m1 m2 m3, x :: y :: z :: r => some (.mul (.ofMode m1 x) (.ofMode m2 y) (.ofMode m3 z), r)
  | .inp m1, x :: r => some (.inp (.ofMode m1 x), r)
  | .out m1, x :: r => some (.out (.ofMode m1 x), r)
  | .jt m1 m2, x :: y :: r => some (.jt (.ofMode m1 x) (.ofMode m2 y), r)
  | .jf m1 m2, x :: y :: r => some (.jf (.ofMode m1 x) (.ofMode m2 y), r)
  | .lt m1 m2 m3, x :: y :: z :: r => some (.lt (.ofMode m1 x) (.ofMode m2 y) (.ofMode m3 z), r)
  | .eq m1 m2 m3, x :: y :: z :: r => some (.eq (.ofMode m1 x) (.ofMode m2 y) (.ofMode m3 z), r)
  | .arb m1, x :: r => some (.arb (.ofMode m1 x), r)
  | .halt, r => some (.halt, r)
  | _, _ => none

/-- Decodes the instruction at the front of a list of cells and gives the cells after it. -/
def decode (v : Variant) : List Int → Except Reject (Instr × List Int)
  | [] => .error .noWord
  | w :: cells =>
    match decodeWord v w with
    | .error t => .error (.illegal t)
    | .ok f =>
      match f.takeOperands cells with
      | none => .error .missing
      | some r => .ok r

/-! The encoder (30_encoding.md R75). -/

/-- The digit of a read operand's mode (R63). -/
def Mode.toDigit : Mode → Nat
  | .position => 0
  | .immediate => 1
  | .relative => 2

/-- The digit of a write operand's mode (R63). -/
def TargetMode.toDigit : TargetMode → Nat
  | .position => 0
  | .relative => 2

/-- `w = op + 100*m1 + 1000*m2 + 10000*m3`, digits beyond the operands 0 (R75). -/
def Form.word : Form → Nat
  | .add m1 m2 m3 => 1 + 100 * m1.toDigit + 1000 * m2.toDigit + 10000 * m3.toDigit
  | .mul m1 m2 m3 => 2 + 100 * m1.toDigit + 1000 * m2.toDigit + 10000 * m3.toDigit
  | .inp m1 => 3 + 100 * m1.toDigit
  | .out m1 => 4 + 100 * m1.toDigit
  | .jt m1 m2 => 5 + 100 * m1.toDigit + 1000 * m2.toDigit
  | .jf m1 m2 => 6 + 100 * m1.toDigit + 1000 * m2.toDigit
  | .lt m1 m2 m3 => 7 + 100 * m1.toDigit + 1000 * m2.toDigit + 10000 * m3.toDigit
  | .eq m1 m2 m3 => 8 + 100 * m1.toDigit + 1000 * m2.toDigit + 10000 * m3.toDigit
  | .arb m1 => 9 + 100 * m1.toDigit
  | .halt => 99

/-- The instruction word of an instruction. -/
def encodeWord (i : Instr) : Int := (i.form.word : Int)

/-- The cells of an instruction: its word, then its operand words (R60). -/
def encode (i : Instr) : List Int := encodeWord i :: i.operandWords

/-! Rows of spec/opcode_table.json given as numbered bits (the host's interface; log 5). -/

/-- The longest instruction, in cells (format FRRW, R65). -/
def longestInstr : Nat := 4

/-- Int `k` of a number read as consecutive words of `W` bits, the first word lowest, each a two's-complement value. -/
def cellOfBits (W bits k : Nat) : Int :=
  let u := bits / 2 ^ (W * k) % 2 ^ W
  if u < 2 ^ (W - 1) then (u : Int) else (u : Int) - ((2 ^ W : Nat) : Int)

/-- The cells of the longest instruction that the low `nbits` bits of `w` give, every bit above them 0. -/
def cellsOfBits (W nbits w : Nat) : List Int :=
  [cellOfBits W (w % 2 ^ nbits) 0, cellOfBits W (w % 2 ^ nbits) 1,
   cellOfBits W (w % 2 ^ nbits) 2, cellOfBits W (w % 2 ^ nbits) 3]

/-- The instruction the decoder reads from a table row's word, for the extended variant, whose opcodes are all the
table's rows (log 5). -/
def decodeTableWord (nbits w : Nat) : Option Instr :=
  match decode .extended (cellsOfBits Variant.extended.width nbits w) with
  | .ok (i, _) => some i
  | .error _ => none

end Sys2Proof
end

