-- ==== Sys2Proof/Machine/State.lean ====
section
/-! DEFINITION. The whole state of one machine instance (10_state.md), as plain data, and its reset value. -/

namespace Sys2Proof.Machine

/-- The error latch's record (10_state.md R29, 60_exceptions.md R172). -/
structure ErrInfo where
  code    : ErrorCode
  /-- the `pc` of the failing instruction -/
  atPc    : Nat
  /-- the operand involved, 1 to 3, or 0 -/
  operand : Nat
  /-- the offending value -/
  value   : Int
deriving DecidableEq, Repr

/-- Memory: pairs of a cell index and a cell value. The canonical form (`Memory.wf`) has its indices strictly rising and
lists no cell that holds 0, which is what an unlisted cell reads as: the spec's padding value (10_state.md R26, log 1).
Cells, not bytes: 20_memory.md R41. -/
abbrev Memory := List (Nat × Int)

/-- One machine instance (10_state.md): the configuration fixed at construction and the six state fields. -/
structure State where
  /-- VARIANT, CAPACITY, MEM_SIZE (R30, log 2) -/
  cfg  : Config
  /-- `mem`, R26 -/
  mem  : Memory
  /-- `pc`, R21 -/
  pc   : Nat
  /-- `rb`, R24 -/
  rb   : Int
  /-- `inq`, front first, R27 -/
  inq  : List Int
  /-- `outq`, front (oldest) first, R28 -/
  outq : List Int
  /-- `err`, R29 -/
  err  : Option ErrInfo
deriving DecidableEq, Repr

/-- Reasons for the model to stop with a fault: none. The spec's step is total (40_pipeline.md R91, R92), and each of its
errors is a next state with the latch set (R89), so nothing raises a fault. -/
inductive Fault
deriving DecidableEq, Repr

/-- Reasons for the model to refuse an instruction. -/
inductive Refusal where
  /-- An instruction without a meaning; raised by an arm of `exec` that has none. No arm raises it in this model. Safe:
  the model stops where the hardware goes on. -/
  | notModelled (mnemonic : String)
deriving DecidableEq, Repr

/-- Right after reset (10_state.md R35, 70_reset_and_hazards.md R200) of an instance whose image is one zero cell, the
shortest there is: no program is placed. Variant, capacity and image length are DESIGN CHOICES (log 3); every other value
is R35's. -/
def State.reset : State where
  cfg  := { variant := .extended, capacity := 0, memSize := 1 }
  mem  := []
  pc   := 0
  rb   := 0
  inq  := []
  outq := []
  err  := none

end Sys2Proof.Machine
end

