-- ==== Sys2Proof/Machine/Flags.lean ====
section
/-! DEFINITION. The core has no flags (10_state.md R25). What stands in their place is here: the value a comparison
writes into memory, and the test a conditional jump makes of a value. -/

namespace Sys2Proof.Machine

/-- What LT and EQ write: 1 for true, 0 for false (41_alu.md R102, R103; PRESUMED by the spec as G2, log 11). -/
def truthValue (b : Bool) : Int := if b then 1 else 0

/-- Less-than, signed (R102). -/
def lessThan (a b : Int) : Int := truthValue (decide (a < b))

/-- Equal (R103). -/
def equalTo (a b : Int) : Int := truthValue (decide (a = b))

/-- The truthiness a jump tests: nonzero is true (43_control.md R140, R141). -/
def truthy (c : Int) : Bool := decide (c ≠ 0)

end Sys2Proof.Machine
end

