-- ==== Sys2Proof/Machine/Ops.lean ====
section
/-! DEFINITION. The named operations over the state: memory, taking an error, and committing an instruction's effect. -/

namespace Sys2Proof.Machine

/-! Memory (20_memory.md R40 to R43). -/

/-- `mem[a]`: the value listed for the cell, or 0 (10_state.md R26). -/
def Memory.read : Memory → Nat → Int
  | [], _ => 0
  | c :: m, a => if c.1 = a then c.2 else Memory.read m a

/-- The memory without an entry for cell `a`. -/
def Memory.erase (m : Memory) (a : Nat) : Memory := m.filter (fun c => c.1 ≠ a)

/-- The memory with an entry placed before the first higher index. -/
def Memory.insert : Memory → Nat → Int → Memory
  | [], a, v => [(a, v)]
  | c :: m, a, v => if a < c.1 then (a, v) :: c :: m else c :: Memory.insert m a v

/-- `mem[a] <- v`: changes that cell only (R43), keeping the canonical form. -/
def Memory.write (m : Memory) (a : Nat) (v : Int) : Memory :=
  if v = 0 then m.erase a else (m.erase a).insert a v

/-- Consecutive cells from `a` on (construction, loading). -/
def Memory.writeList : Memory → Nat → List Int → Memory
  | m, _, [] => m
  | m, a, v :: vs => Memory.writeList (m.write a v) (a + 1) vs

/-- The canonical form: indices strictly rising from `low` on, no value 0. -/
def Memory.wfFrom : Nat → Memory → Bool
  | _, [] => true
  | low, c :: m => decide (low ≤ c.1) && decide (c.2 ≠ 0) && Memory.wfFrom (c.1 + 1) m

/-- The canonical form of memory (log 1). -/
def Memory.wf (m : Memory) : Bool := Memory.wfFrom 0 m

/-- `MemRead(a, 1)` (00_scope.md R8). -/
def State.readCell (s : State) (a : Nat) : Int := s.mem.read a

/-- The range check on a resolved address (20_memory.md R49), for operand `k`. -/
def State.checkAddr (s : State) (k : Nat) (a : Int) : Except Trap Nat :=
  if 0 ≤ a ∧ a < s.cfg.memSize then .ok a.toNat else .error ⟨.invalidAddress, k, a⟩

/-- A result that must fit a cell (41_alu.md R104, 44_relative_base.md R161); `operand` is what the error records. -/
def State.checkFits (s : State) (operand : Nat) (r : Int) : Except Trap Int :=
  if s.cfg.variant.fits r then .ok r else .error ⟨.arithmeticOverflow, operand, r⟩

/-! Taking an error (40_pipeline.md R89, 60_exceptions.md R170 to R177). -/

/-- The record an error raised now leaves: `at_pc` is the pc of the failing instruction (R172). -/
def State.errInfo (s : State) (t : Trap) : ErrInfo := ⟨t.code, s.pc, t.operand, t.value⟩

/-- `raise Error(code, {operand, value})`: latches the record and changes nothing else (R89). There is no handler to
enter (R176) and no return from it: the latch never clears (R177). -/
def State.raise (s : State) (t : Trap) : State := { s with err := some (s.errInfo t) }

/-! EXECUTE's result and COMMIT (40_pipeline.md R86 to R88). -/

/-- The effect record of R87. -/
structure Effect where
  /-- at most one memory write -/
  wr     : Option (Nat × Int)
  pcNext : Nat
  rbNext : Int
  /-- remove the front of `inq` -/
  popIn  : Bool
  /-- append to `outq` -/
  out    : Option Int
deriving DecidableEq, Repr

/-- `pc <- pc + n` (10_state.md R22). Where the sum passes CELL_MAX, as in a step only MEM_SIZE above CELL_MAX allows, R21 forbids
it: `pc` is then a free value within what the other rules fix, at most CELL_MAX (R21) and not before `pc`, which never
wraps (R23). DESIGN CHOICE, log 9. -/
def State.nextPc (s : State) (n : Nat) : Nat :=
  if ((s.pc + n : Nat) : Int) ≤ s.cfg.variant.cellMax then s.pc + n
  else min s.cfg.variant.cellMax.toNat (max s.pc (Config.pcPastMax s.cfg.variant (s.pc + n)))

/-- The effect that only moves `pc` by `n` cells (10_state.md R22). -/
def State.advance (s : State) (n : Nat) : Effect :=
  { wr := none, pcNext := s.nextPc n, rbNext := s.rb, popIn := false, out := none }

/-- COMMIT: the effect record applied as one update (R88). -/
def State.commit (s : State) (e : Effect) : State where
  cfg  := s.cfg
  mem  := match e.wr with
    | some (a, v) => s.mem.write a v
    | none => s.mem
  pc   := e.pcNext
  rb   := e.rbNext
  inq  := if e.popIn then s.inq.tail else s.inq
  outq := match e.out with
    | some v => s.outq ++ [v]
    | none => s.outq
  err  := s.err

/-- How the stages after OPERAND FETCH end a step (00_scope.md R9). -/
inductive Ending where
  /-- EXECUTE gave an effect record: COMMIT applies it, outcome OK -/
  | commit (e : Effect)
  /-- outcome WAIT -/
  | wait
  /-- outcome HALT -/
  | halt
  /-- an error was raised -/
  | trap (t : Trap)
deriving DecidableEq, Repr

/-- A stage that raises ends the step (R9). -/
def Ending.ofStages : Except Trap Ending → Ending
  | .ok e => e
  | .error t => .trap t

/-- The state a step leaves (R9, R88, R89): WAIT and HALT change nothing. -/
def State.conclude (s : State) : Ending → State
  | .commit e => s.commit e
  | .wait => s
  | .halt => s
  | .trap t => s.raise t

/-- The result of a meaning: always a next state; an error is one with the latch set (log 6). -/
def State.finish (s : State) (e : Ending) : Host.Outcome State Fault Refusal := .next (s.conclude e)

/-- What a step returns to the host (60_exceptions.md R173, 40_pipeline.md R91). -/
inductive Status where
  | ok
  | wait
  | halt
  | error (e : ErrInfo)
deriving DecidableEq, Repr

/-- The status codes of R173. -/
def Status.code : Status → Nat
  | .ok => 0
  | .wait => 1
  | .halt => 2
  | .error _ => 3

/-- The status of a step that ends so. -/
def State.statusOf (s : State) : Ending → Status
  | .commit _ => .ok
  | .wait => .wait
  | .halt => .halt
  | .trap t => .error (s.errInfo t)

end Sys2Proof.Machine
end

