-- ==== Sys2Proof/Machine/Operands.lean ====
section
/-! DEFINITION. The operand address resolver (20_memory.md R45 to R49). `k` is the operand's number, 1 to 3. -/

namespace Sys2Proof.Machine

/-- Relative mode's base (R48). On NARROW the digit 2 is an unknown mode (30_encoding.md R68): the decoder lets no such
operand through, and a term that holds one raises that error (log 7). -/
def State.relativeBase (s : State) (k : Nat) : Except Trap Int :=
  match s.cfg.variant with
  | .narrow => .error ⟨.unknownMode, k, 2⟩
  | .extended => .ok s.rb

/-- `Addr(k)` in Position mode: the operand word (R46). -/
def State.addrPosition (s : State) (k : Nat) (o : Int) : Except Trap Nat := s.checkAddr k o

/-- `Addr(k)` in Relative mode: the exact sum `rb + o_k` (R48). -/
def State.addrRelative (s : State) (k : Nat) (o : Int) : Except Trap Nat :=
  match s.relativeBase k with
  | .error t => .error t
  | .ok rb => s.checkAddr k (rb + o)

/-- The value of the cell an address names, or the error the address raised. -/
def State.readAt (s : State) : Except Trap Nat → Except Trap Int
  | .error t => .error t
  | .ok a => .ok (s.readCell a)

/-- `Val(k)`: the value of a read operand (R45). -/
def State.val (s : State) (k : Nat) : Src → Except Trap Int
  | .pos n => s.readAt (s.addrPosition k n)
  | .imm n => .ok n
  | .rel n => s.readAt (s.addrRelative k n)

/-- `Loc(k)`: the cell index of a write target (R45). -/
def State.loc (s : State) (k : Nat) : Dst → Except Trap Nat
  | .pos n => s.addrPosition k n
  | .rel n => s.addrRelative k n

end Sys2Proof.Machine
end

