-- ==== Sys2Proof/Machine/Alu.lean ====
section
/-! DEFINITION. ADD, MUL, LT, EQ (41_alu.md): format FRRW. Operands are resolved in order (40_pipeline.md R85), the
result is an exact integer (R104), and the write is the step's only one. -/

namespace Sys2Proof.Machine

/-- RESOLVE and EXECUTE of format FRRW with the binary function `f` (R100 to R103). -/
def aluEnding (f : Int → Int → Except Trap Int) (a b : Src) (t : Dst) (s : State) : Ending :=
  .ofStages do
    let x ← s.val 1 a
    let y ← s.val 2 b
    let l ← s.loc 3 t
    let r ← f x y
    return .commit { s.advance 4 with wr := some (l, r) }

/-- ADD: `mem[t] <- a + b` (R100). -/
def addEnding (a b : Src) (t : Dst) (s : State) : Ending :=
  aluEnding (fun x y => s.checkFits 0 (x + y)) a b t s

/-- MUL: `mem[t] <- a * b` (R101). -/
def mulEnding (a b : Src) (t : Dst) (s : State) : Ending :=
  aluEnding (fun x y => s.checkFits 0 (x * y)) a b t s

/-- LT: `mem[t] <- 1` if `a < b`, else 0 (R102). -/
def ltEnding (a b : Src) (t : Dst) (s : State) : Ending :=
  aluEnding (fun x y => .ok (lessThan x y)) a b t s

/-- EQ: `mem[t] <- 1` if `a = b`, else 0 (R103). -/
def eqEnding (a b : Src) (t : Dst) (s : State) : Ending :=
  aluEnding (fun x y => .ok (equalTo x y)) a b t s

/-- The meaning of ADD. -/
def execAdd (a b : Src) (t : Dst) (s : State) : Host.Outcome State Fault Refusal := s.finish (addEnding a b t s)

/-- The meaning of MUL. -/
def execMul (a b : Src) (t : Dst) (s : State) : Host.Outcome State Fault Refusal := s.finish (mulEnding a b t s)

/-- The meaning of LT. -/
def execLt (a b : Src) (t : Dst) (s : State) : Host.Outcome State Fault Refusal := s.finish (ltEnding a b t s)

/-- The meaning of EQ. -/
def execEq (a b : Src) (t : Dst) (s : State) : Host.Outcome State Fault Refusal := s.finish (eqEnding a b t s)

end Sys2Proof.Machine
end

