-- ==== Sys2Proof/Machine/Control.lean ====
section
/-! DEFINITION. JT, JF, HALT (43_control.md). -/

namespace Sys2Proof.Machine

/-- A taken jump: `pc <- g`; a negative target raises (R143). -/
def jumpTo (s : State) (g : Int) : Except Trap Effect :=
  if g < 0 then .error ⟨.invalidJumpTarget, 2, g⟩ else .ok { s.advance 0 with pcNext := g.toNat }

/-- RESOLVE and EXECUTE of format FRR; both operands are resolved whether or not the jump is taken (40_pipeline.md
R85). -/
def jumpEnding (taken : Int → Bool) (c g : Src) (s : State) : Ending :=
  .ofStages do
    let x ← s.val 1 c
    let y ← s.val 2 g
    if taken x then
      let e ← jumpTo s y
      return .commit e
    else
      return .commit (s.advance 3)

/-- JT: jumps when the condition is nonzero (R140). -/
def jtEnding (c g : Src) (s : State) : Ending := jumpEnding (fun x => truthy x) c g s

/-- JF: jumps when the condition is zero (R141). -/
def jfEnding (c g : Src) (s : State) : Ending := jumpEnding (fun x => !truthy x) c g s

/-- HALT: outcome HALT, nothing is written (R142). -/
def haltEnding (_s : State) : Ending := .halt

/-- The meaning of JT. -/
def execJt (c g : Src) (s : State) : Host.Outcome State Fault Refusal := s.finish (jtEnding c g s)

/-- The meaning of JF. -/
def execJf (c g : Src) (s : State) : Host.Outcome State Fault Refusal := s.finish (jfEnding c g s)

/-- The meaning of HALT. -/
def execHalt (s : State) : Host.Outcome State Fault Refusal := s.finish (haltEnding s)

end Sys2Proof.Machine
end

