-- ==== Sys2Proof/Machine/Io.lean ====
section
/-! DEFINITION. IN and OUT (42_io.md): the core's only link to the host's queues. -/

namespace Sys2Proof.Machine

/-- IN: the target is resolved first, then the input gate (40_pipeline.md R86): WAIT on an empty queue, else the front
value is popped and written (R120). -/
def inpEnding (t : Dst) (s : State) : Ending :=
  .ofStages do
    let l ← s.loc 1 t
    match s.inq with
    | [] => return .wait
    | v :: _ => return .commit { s.advance 2 with wr := some (l, v), popIn := true }

/-- OUT: the operand's value is appended to `outq` (R121). -/
def outEnding (a : Src) (s : State) : Ending :=
  .ofStages do
    let x ← s.val 1 a
    return .commit { s.advance 2 with out := some x }

/-- The meaning of IN. -/
def execInp (t : Dst) (s : State) : Host.Outcome State Fault Refusal := s.finish (inpEnding t s)

/-- The meaning of OUT. -/
def execOut (a : Src) (s : State) : Host.Outcome State Fault Refusal := s.finish (outEnding a s)

end Sys2Proof.Machine
end

