-- ==== Sys2Proof/Machine/RelativeBase.lean ====
section
/-! DEFINITION. ARB (44_relative_base.md). -/

namespace Sys2Proof.Machine

/-- ARB: `rb <- rb + d`, an exact sum that must fit (R160, R161). On NARROW the word raises UNKNOWN_OPCODE (R160); the
decoder lets none through, and a term that holds it raises that error (log 7). -/
def arbEnding (d : Src) (s : State) : Ending :=
  match s.cfg.variant with
  | .narrow => .trap ⟨.unknownOpcode, 0, encodeWord (.arb d)⟩
  | .extended =>
    .ofStages do
      let x ← s.val 1 d
      let r ← s.checkFits 1 (s.rb + x)
      return .commit { s.advance 2 with rbNext := r }

/-- The meaning of ARB. -/
def execArb (d : Src) (s : State) : Host.Outcome State Fault Refusal := s.finish (arbEnding d s)

end Sys2Proof.Machine
end

