-- ==== Sys2Proof/Machine/Dispatch.lean ====
section
/-! DEFINITION. One arm per instruction: RESOLVE, INPUT GATE, EXECUTE and COMMIT of the decoded instruction. -/

namespace Sys2Proof.Machine

def exec (i : Instr) (s : State) : Host.Outcome State Fault Refusal :=
  match i with
  | .add a b t => Sys2Proof.Machine.execAdd a b t s
  | .mul a b t => Sys2Proof.Machine.execMul a b t s
  | .inp t => Sys2Proof.Machine.execInp t s
  | .out a => Sys2Proof.Machine.execOut a s
  | .jt c g => Sys2Proof.Machine.execJt c g s
  | .jf c g => Sys2Proof.Machine.execJf c g s
  | .lt a b t => Sys2Proof.Machine.execLt a b t s
  | .eq a b t => Sys2Proof.Machine.execEq a b t s
  | .arb d => Sys2Proof.Machine.execArb d s
  | .halt => Sys2Proof.Machine.execHalt s

end Sys2Proof.Machine
end

