-- ==== Sys2Proof/Machine/Fetch.lean ====
section
/-! DEFINITION. The stages before RESOLVE (40_pipeline.md R81 to R84): LATCH, FETCH, DECODE, OPERAND FETCH. -/

namespace Sys2Proof.Machine

/-- The cells from `pc` on that exist, as many as the longest instruction has. -/
def State.window (s : State) : List Int :=
  (List.range (min longestInstr (s.cfg.memSize - s.pc))).map (fun k => s.readCell (s.pc + k))

/-- How the stages before RESOLVE end. -/
inductive Fetched where
  /-- LATCH: an error is latched (R81) -/
  | latched (e : ErrInfo)
  /-- FETCH: `pc >= MEM_SIZE` (R82) -/
  | pastEnd
  /-- DECODE or OPERAND FETCH raised (R83, R84) -/
  | trap (t : Trap)
  /-- an instruction with its operand words -/
  | instr (i : Instr)
deriving DecidableEq, Repr

/-- DECODE and OPERAND FETCH at a `pc` inside memory. MISSING_OPERAND records the first missing operand,
`MEM_SIZE - pc`, and the first missing cell, MEM_SIZE (R84). With `pc < MEM_SIZE` the window has a word. -/
def State.decodeAtPc (s : State) : Fetched :=
  match decode s.cfg.variant s.window with
  | .ok (i, _) => .instr i
  | .error (.illegal t) => .trap t
  | .error .missing => .trap ⟨.missingOperand, s.cfg.memSize - s.pc, s.cfg.memSize⟩
  | .error .noWord => .pastEnd

/-- LATCH, FETCH, DECODE, OPERAND FETCH (R81 to R84). -/
def State.fetch (s : State) : Fetched :=
  match s.err with
  | some e => .latched e
  | none => if s.cfg.memSize ≤ s.pc then .pastEnd else s.decodeAtPc

/-- The state with the cells placed from `pc` on, memory made long enough and the latch clear: what loading an instruction
from outside amounts to (log 4). -/
def State.placeAtPc (s : State) (cells : List Int) : State :=
  { s with
    cfg := { s.cfg with memSize := max s.cfg.memSize (s.pc + cells.length) }
    mem := s.mem.writeList s.pc cells
    err := none }

end Sys2Proof.Machine
end

