-- ==== Sys2Proof/Machine/Step.lean ====
section
/-! DEFINITION. The step (40_pipeline.md R90): an error already latched, a `pc` past the end, an error of DECODE or
OPERAND FETCH, or one instruction executed. -/

namespace Sys2Proof.Machine

/-- One step's next state. What the step reports to the host is `hostStep` (HostPort.lean). -/
def step (s : State) : Host.Outcome State Fault Refusal :=
  match s.fetch with
  | .latched _ => .next s
  | .pastEnd => .next s
  | .trap t => .next (s.raise t)
  | .instr i => exec i s

/-- The state whose next step fetches the instruction that the low `nbits` bits of `w` give in cells of the machine's
width, every bit above them 0 (log 4, log 5). -/
def State.withFetchWord (s : State) (nbits w : Nat) : State :=
  s.placeAtPc (cellsOfBits s.cfg.variant.width nbits w)

end Sys2Proof.Machine
end

