-- ==== Sys2Proof/Machine/ProgramText.lean ====
section
/-! DEFINITION. Program text and construction (70_reset_and_hazards.md R200 to R208). A text is its list of characters.

The grammar `text ::= ws int ws ("," ws int ws)*` is read as: the pieces between commas, each an integer with white
space around it (R207, log 12). -/

namespace Sys2Proof.Machine

/-- `ws` of R207. -/
def isSpace (c : Char) : Bool := c = ' ' || c = '\t' || c = '\r' || c = '\n'

/-- The pieces of a text between separators: the first and the rest. -/
def splitOnChar (sep : Char) : List Char → List Char × List (List Char)
  | [] => ([], [])
  | c :: cs =>
    let r := splitOnChar sep cs
    if c = sep then ([], r.1 :: r.2) else (c :: r.1, r.2)

/-- A piece without the white space around it. -/
def trimSpace (cs : List Char) : List Char :=
  ((cs.dropWhile isSpace).reverse.dropWhile isSpace).reverse

/-- The value of a decimal digit. -/
def digitValue (c : Char) : Option Nat :=
  if 48 ≤ c.toNat ∧ c.toNat ≤ 57 then some (c.toNat - 48) else none

/-- The value of decimal digits read after `acc`. -/
def digitsValue : Nat → List Char → Option Nat
  | acc, [] => some acc
  | acc, c :: cs =>
    match digitValue c with
    | some d => digitsValue (10 * acc + d) cs
    | none => none

/-- `digit+` of R207: at least one digit. -/
def parseNat : List Char → Option Nat
  | [] => none
  | cs => digitsValue 0 cs

/-- `int ::= "-"? digit+` (R207). -/
def parseInt : List Char → Option Int
  | '-' :: cs => (parseNat cs).map (fun n => -(n : Int))
  | cs => (parseNat cs).map (fun n => (n : Int))

/-- One cell of a program text: an integer that fits (R208). -/
def parseCell (v : Variant) (cs : List Char) : Option Int :=
  match parseInt (trimSpace cs) with
  | some n => if v.fits n then some n else none
  | none => none

/-- The cells of the pieces, or none where one is malformed. -/
def parseCells (v : Variant) : List (List Char) → Option (List Int)
  | [] => some []
  | p :: ps =>
    match parseCell v p, parseCells v ps with
    | some n, some ns => some (n :: ns)
    | _, _ => none

/-- `parse(text)` of R200: the image, or none where the text is malformed (R208). -/
def parseProgram (v : Variant) (text : List Char) : Option (List Int) :=
  let r := splitOnChar ',' text
  parseCells v (r.1 :: r.2)

/-- The reset state of an image (R200, 10_state.md R35): CAPACITY is 0 on NARROW, MEM_SIZE is the larger of the image's
length and CAPACITY (R201), cells beyond the image hold 0. -/
def State.ofImage (v : Variant) (image input : List Int) (capacity : Nat) : State :=
  let cap := match v with
    | .narrow => 0
    | .extended => capacity
  { cfg := { variant := v, capacity := cap, memSize := max image.length cap }
    mem := Memory.writeList [] 0 image
    pc := 0
    rb := 0
    inq := input
    outq := []
    err := none }

/-- `construct(text, input, capacity)` (R200): a new instance, or MALFORMED_PROGRAM_TEXT when the text is malformed (R208)
or an element of the initial input does not fit (D24). -/
def construct (v : Variant) (text : List Char) (input : List Int) (capacity : Nat) : Except ErrorCode State :=
  match parseProgram v text with
  | none => .error .malformedProgramText
  | some image =>
    if ∀ x ∈ input, v.fits x then .ok (State.ofImage v image input capacity)
    else .error .malformedProgramText

end Sys2Proof.Machine
end

