-- ==== Sys2Proof/Machine/Assembler.lean ====
section
/-! DEFINITION. The assembler notation of 30_encoding.md R72 to R74. It is the spec's own and not normative for the core
(D22): no definition of the machine uses it. Details the rules leave open are in log 13. -/

namespace Sys2Proof.Machine

/-! Pseudo-instructions (R74), each an exact expansion. -/

/-- `MOV src, dst` -/
def pseudoMov (src : Src) (dst : Dst) : Instr := .add src (.imm 0) dst

/-- `JMP tgt` -/
def pseudoJmp (tgt : Src) : Instr := .jt (.imm 1) tgt

/-- `NOP` -/
def pseudoNop : Instr := .jt (.imm 0) (.imm 0)

/-- A number or a label (R73). -/
inductive AsmValue where
  | num (n : Int)
  | label (name : List Char)
deriving DecidableEq, Repr

/-- The operand forms of R73. -/
inductive AsmOperand where
  /-- `[n]` -/
  | pos (x : AsmValue)
  /-- `#n` -/
  | imm (x : AsmValue)
  /-- `[rb+n]` -/
  | rbPlus (x : AsmValue)
  /-- `[rb-n]` -/
  | rbMinus (x : AsmValue)
deriving DecidableEq, Repr

/-- A statement: `.word` or a mnemonic with its operands. -/
inductive AsmStmt where
  | words (xs : List AsmValue)
  | op (mnemonic : List Char) (operands : List AsmOperand)
deriving DecidableEq, Repr

/-- A line: a label, a statement, both or neither (R72). -/
structure AsmLine where
  label : Option (List Char)
  stmt  : Option AsmStmt
deriving DecidableEq, Repr

/-! Reading the text. -/

/-- A character that may begin a label. -/
def isNameStart (c : Char) : Bool := c.isAlpha || c = '_'

/-- A character that may stand in a label. -/
def isNameChar (c : Char) : Bool := c.isAlpha || c.isDigit || c = '_'

/-- A label: letters, digits and `_`, no digit first, and not the word `rb`, which names the relative base. Which words may
be labels is the model's choice: R72 does not say (DESIGN CHOICE, log 13). -/
def parseName : List Char → Option (List Char)
  | [] => none
  | c :: cs => if isNameStart c && cs.all isNameChar && decide (c :: cs ≠ ['r', 'b']) then some (c :: cs) else none

/-- A signed decimal integer or a label (R73). R73 does not spell the integer out: reading it as a program text's `int`
(R207), so with no plus sign and with leading zeros and `-0`, is the model's choice (DESIGN CHOICE, log 13). -/
def parseAsmValue (cs : List Char) : Option AsmValue :=
  match parseInt cs with
  | some n => some (.num n)
  | none => (parseName cs).map .label

/-- What stands between the brackets of `[n]`, `[rb+n]`, `[rb-n]`. R73 lets `n` be any signed integer or label, so
`[rb--3]` is the operand word 3 (log 13). -/
def parseBracket : List Char → Option AsmOperand
  | 'r' :: 'b' :: '+' :: cs => (parseAsmValue cs).map .rbPlus
  | 'r' :: 'b' :: '-' :: cs => (parseAsmValue cs).map .rbMinus
  | cs => (parseAsmValue cs).map .pos

/-- An operand (R73). -/
def parseAsmOperand : List Char → Option AsmOperand
  | '#' :: cs => (parseAsmValue cs).map .imm
  | '[' :: cs => if cs.getLast? = some ']' then parseBracket cs.dropLast else none
  | _ => none

/-- The pieces between commas, white space trimmed; no piece in a blank text. -/
def commaPieces (cs : List Char) : List (List Char) :=
  if cs = [] then [] else
    let r := splitOnChar ',' cs
    (r.1 :: r.2).map trimSpace

/-- All pieces read, or none. -/
def readAll {α : Type} (f : List Char → Option α) : List (List Char) → Option (List α)
  | [] => some []
  | p :: ps =>
    match f p, readAll f ps with
    | some x, some xs => some (x :: xs)
    | _, _ => none

/-- A statement: its first word, then its comma-separated operands. That a value of `.word` may be a label, as an operand's
`n` may, is the model's choice: R73 says only "the given cells" (DESIGN CHOICE, log 13). -/
def parseStmt (cs : List Char) : Option AsmStmt :=
  let head := cs.takeWhile (fun c => !isSpace c)
  let args := commaPieces (trimSpace (cs.dropWhile (fun c => !isSpace c)))
  if head = ['.', 'w', 'o', 'r', 'd'] then
    if args = [] then none else (readAll parseAsmValue args).map .words
  else (readAll parseAsmOperand args).map (.op head)

/-- A line without its comment: `; text` (R72). -/
def dropComment (cs : List Char) : List Char := cs.takeWhile (fun c => c ≠ ';')

/-- The statement of a line, or nothing on a blank one. -/
def parseBody (label : Option (List Char)) (cs : List Char) : Option AsmLine :=
  match trimSpace cs with
  | [] => some { label := label, stmt := none }
  | body => (parseStmt body).map (fun st => { label := label, stmt := some st })

/-- A line: an optional `name:`, then an optional statement (R72). -/
def parseLine (cs : List Char) : Option AsmLine :=
  let r := splitOnChar ':' (dropComment cs)
  match r.2 with
  | [] => parseBody none r.1
  | [rest] =>
    match parseName (trimSpace r.1) with
    | some name => parseBody (some name) rest
    | none => none
  | _ => none

/-- The lines of a text. -/
def parseAsm (text : List Char) : Option (List AsmLine) :=
  let r := splitOnChar '\n' text
  readAll parseLine (r.1 :: r.2)

/-! Encoding. -/

/-- The labels and their cell indices. -/
abbrev Labels := List (List Char × Nat)

/-- A value with its labels resolved; `labels = none` takes every label as 0, which is enough to size a line. -/
def AsmValue.resolve (labels : Option Labels) : AsmValue → Option Int
  | .num n => some n
  | .label name =>
    match labels with
    | none => some 0
    | some ls => (ls.lookup name).map (fun n => (n : Int))

/-- A read operand (R73). -/
def AsmOperand.src (labels : Option Labels) : AsmOperand → Option Src
  | .pos x => (x.resolve labels).map .pos
  | .imm x => (x.resolve labels).map .imm
  | .rbPlus x => (x.resolve labels).map .rel
  | .rbMinus x => (x.resolve labels).map (fun n => .rel (-n))

/-- A write operand: `#n` is refused (R73). -/
def AsmOperand.dst (labels : Option Labels) : AsmOperand → Option Dst
  | .pos x => (x.resolve labels).map .pos
  | .imm _ => none
  | .rbPlus x => (x.resolve labels).map .rel
  | .rbMinus x => (x.resolve labels).map (fun n => .rel (-n))

/-- The instruction a mnemonic and its operands stand for: exactly as many operands as the format has (R72). -/
def asmInstr (labels : Option Labels) (mnemonic : List Char) (operands : List AsmOperand) : Option Instr :=
  match mnemonic, operands with
  | ['A', 'D', 'D'], [a, b, t] => do return .add (← a.src labels) (← b.src labels) (← t.dst labels)
  | ['M', 'U', 'L'], [a, b, t] => do return .mul (← a.src labels) (← b.src labels) (← t.dst labels)
  | ['I', 'N'], [t] => do return .inp (← t.dst labels)
  | ['O', 'U', 'T'], [a] => do return .out (← a.src labels)
  | ['J', 'T'], [c, g] => do return .jt (← c.src labels) (← g.src labels)
  | ['J', 'F'], [c, g] => do return .jf (← c.src labels) (← g.src labels)
  | ['L', 'T'], [a, b, t] => do return .lt (← a.src labels) (← b.src labels) (← t.dst labels)
  | ['E', 'Q'], [a, b, t] => do return .eq (← a.src labels) (← b.src labels) (← t.dst labels)
  | ['A', 'R', 'B'], [d] => do return .arb (← d.src labels)
  | ['H', 'A', 'L', 'T'], [] => some .halt
  | ['M', 'O', 'V'], [a, t] => do return pseudoMov (← a.src labels) (← t.dst labels)
  | ['J', 'M', 'P'], [g] => do return pseudoJmp (← g.src labels)
  | ['N', 'O', 'P'], [] => some pseudoNop
  | _, _ => none

/-- The values of `.word`, each of which must fit a cell. -/
def wordCells (v : Variant) (labels : Option Labels) : List AsmValue → Option (List Int)
  | [] => some []
  | x :: xs =>
    match x.resolve labels, wordCells v labels xs with
    | some n, some ns => if v.fits n then some (n :: ns) else none
    | _, _ => none

/-- The cells a statement emits; an instruction that is not one of the variant is refused (R73, log 13). -/
def AsmStmt.cells (v : Variant) (labels : Option Labels) : AsmStmt → Option (List Int)
  | .words xs => wordCells v labels xs
  | .op mnemonic operands =>
    match asmInstr labels mnemonic operands with
    | some i => if i.wf v then some (encode i) else none
    | none => none

/-- The cells a line emits. -/
def AsmLine.cells (v : Variant) (labels : Option Labels) (l : AsmLine) : Option (List Int) :=
  match l.stmt with
  | none => some []
  | some st => st.cells v labels

/-- The first pass: each label's value is the index of the first cell its line emits (R72). R72 gives no value to a label on
a line that emits no cell: that it is the index of the next cell emitted, or of the end of the image, is the model's
choice, as is that a label set twice is refused (DESIGN CHOICE, log 13). -/
def asmLabels (v : Variant) : Nat → List AsmLine → Option Labels
  | _, [] => some []
  | at_, l :: ls =>
    match l.cells v none with
    | none => none
    | some cs =>
      match asmLabels v (at_ + cs.length) ls with
      | none => none
      | some labels =>
        match l.label with
        | none => some labels
        | some name => if (labels.lookup name).isSome then none else some ((name, at_) :: labels)

/-- The second pass: the cells of the lines, in order. -/
def asmCells (v : Variant) (labels : Labels) : List AsmLine → Option (List Int)
  | [] => some []
  | l :: ls =>
    match l.cells v (some labels), asmCells v labels ls with
    | some cs, some rest => some (cs ++ rest)
    | _, _ => none

/-- The image an assembly text stands for. -/
def assemble (v : Variant) (text : List Char) : Option (List Int) :=
  match parseAsm text with
  | none => none
  | some lines =>
    match asmLabels v 0 lines with
    | none => none
    | some labels => asmCells v labels lines

end Sys2Proof.Machine
end

