-- ==== Sys2Proof/Machine/Report.lean ====
section
/-! DEFINITION. What a step reports to the host (40_pipeline.md R90, R91, 60_exceptions.md R173). The spec's step gives a
state and an outcome; `step` is the state half, and `hostStep` both. The outcome is returned, not stored (10_state.md R30,
D16), so it is no field of State (log 6). -/

namespace Sys2Proof.Machine

/-- How the stages from RESOLVE on end, for each instruction: what its meaning concludes the step with. -/
def ending : Instr → State → Ending
  | .add a b t, s => addEnding a b t s
  | .mul a b t, s => mulEnding a b t s
  | .inp t, s => inpEnding t s
  | .out a, s => outEnding a s
  | .jt c g, s => jtEnding c g s
  | .jf c g, s => jfEnding c g s
  | .lt a b t, s => ltEnding a b t s
  | .eq a b t, s => eqEnding a b t s
  | .arb d, s => arbEnding d s
  | .halt, s => haltEnding s

/-- `step : State → State × Outcome` of 40_pipeline.md, the host's `step()` (60_exceptions.md R187). -/
def hostStep (s : State) : State × Status :=
  match s.fetch with
  | .latched e => (s, .error e)
  | .pastEnd => (s, .halt)
  | .trap t => (s.raise t, .error (s.errInfo t))
  | .instr i => (s.conclude (ending i s), s.statusOf (ending i s))

/-- The condition *blocked on input* (10_state.md R31), recomputed, not stored: the instruction at `pc` is an IN whose
operand resolves, and `inq` is empty. -/
def State.blocked (s : State) : Bool :=
  match s.fetch with
  | .instr (.inp t) =>
    match s.loc 1 t with
    | .ok _ => s.inq.isEmpty
    | .error _ => false
  | _ => false

/-- The condition *halted* (10_state.md R31): `pc >= MEM_SIZE`, or the word at `pc` is 99. -/
def State.halted (s : State) : Bool :=
  decide (s.cfg.memSize ≤ s.pc) || decide (s.readCell s.pc = 99)

/-- The host's run loop (60_exceptions.md R192): step while the outcome is `ok`, stop on any other. The core has no bound
of its own (43_control.md R145), so the host's step budget is the first argument (R194, log 15); a run whose budget ends
answers `ok`. -/
def run : Nat → State → State × Status
  | 0, s => (s, .ok)
  | n + 1, s =>
    match hostStep s with
    | (t, .ok) => run n t
    | r => r

end Sys2Proof.Machine
end

