-- ==== Sys2Proof/Machine/HostPort.lean ====
section
/-! DEFINITION. The host's operations on instances (60_exceptions.md R187 to R194). Each is indivisible and takes place
between steps (20_memory.md R51): it is one function of the state. The host has no operation that writes memory, `pc`,
`rb` or `err` (R190). -/

namespace Sys2Proof.Machine

/-- `push(v)` (R188): appends to `inq`; a value that does not fit is refused and changes nothing. -/
def State.push (s : State) (v : Int) : Option State :=
  if s.cfg.variant.fits v then some { s with inq := s.inq ++ [v] } else none

/-- `pop_front()` (R189): the oldest element of `outq`, or none. -/
def State.popFront (s : State) : Option Int × State :=
  match s.outq with
  | [] => (none, s)
  | v :: q => (some v, { s with outq := q })

/-- `pop_back()` (R189): the newest element of `outq`, or none. -/
def State.popBack (s : State) : Option Int × State :=
  match s.outq.getLast? with
  | none => (none, s)
  | some v => (some v, { s with outq := s.outq.dropLast })

/-- What the host may inspect (R190). -/
inductive Query where
  | cell (a : Nat)
  | pc
  | rb
  | err
  | memSize
  | inq
  | outq
deriving DecidableEq, Repr

/-- What an inspection shows. -/
inductive Shown where
  | value (v : Int)
  | error (e : Option ErrInfo)
  | values (vs : List Int)
  /-- a cell index at or beyond MEM_SIZE: no such cell (20_memory.md R44) -/
  | noCell
deriving DecidableEq, Repr

/-- `inspect` (R190): changes nothing, so it is a function of the state alone. -/
def State.inspect (s : State) : Query → Shown
  | .cell a => if a < s.cfg.memSize then .value (s.readCell a) else .noCell
  | .pc => .value s.pc
  | .rb => .value s.rb
  | .err => .error s.err
  | .memSize => .value s.cfg.memSize
  | .inq => .values s.inq
  | .outq => .values s.outq

/-- The host's operations on one instance (R187). -/
inductive HostOp where
  | push (v : Int)
  | step
  | popFront
  | popBack
  | inspect (q : Query)
deriving DecidableEq, Repr

/-- What the host gets back (R187). -/
inductive Reply where
  | accepted
  | refused
  | status (st : Status)
  | popped (v : Option Int)
  | shown (x : Shown)
  /-- a new instance's number -/
  | created (i : Nat)
  /-- construction failed (R208) -/
  | failed (c : ErrorCode)
  /-- the host names an instance it does not hold -/
  | noInstance
deriving DecidableEq, Repr

/-- One host operation on one instance. -/
def hostOp (op : HostOp) (s : State) : State × Reply :=
  match op with
  | .push v =>
    match s.push v with
    | some t => (t, .accepted)
    | none => (s, .refused)
  | .step => ((hostStep s).1, .status (hostStep s).2)
  | .popFront => (s.popFront.2, .popped s.popFront.1)
  | .popBack => (s.popBack.2, .popped s.popBack.1)
  | .inspect q => (s, .shown (s.inspect q))

/-- What the host does with the instances it holds (R187, R193): it constructs one, operates on one, or clones one
(R191). Instances are numbered in the order they came to be (log 14). -/
inductive FleetOp where
  | construct (v : Variant) (text : List Char) (input : List Int) (capacity : Nat)
  | on (i : Nat) (op : HostOp)
  | clone (i : Nat)
deriving DecidableEq, Repr

/-- One host action on the instances held. A clone is a new instance equal to the original (R191). -/
def fleetOp (op : FleetOp) (fleet : List State) : List State × Reply :=
  match op with
  | .construct v text input capacity =>
    match construct v text input capacity with
    | .ok s => (fleet ++ [s], .created fleet.length)
    | .error c => (fleet, .failed c)
  | .on i op =>
    match fleet[i]? with
    | some s => (fleet.set i (hostOp op s).1, (hostOp op s).2)
    | none => (fleet, .noInstance)
  | .clone i =>
    match fleet[i]? with
    | some s => (fleet ++ [s], .created fleet.length)
    | none => (fleet, .noInstance)

end Sys2Proof.Machine
end

