-- ==== Sys2Proof/Safety.lean ====
section
/-! DEFINITION. What claims about runs are stated in: the invariants of 10_state.md R33, and runs without an error. -/

namespace Sys2Proof.Machine

/-- The error record is one a step may leave: an operand number 0 to 3 (10_state.md). -/
def ErrInfo.ok (e : ErrInfo) : Prop := e.operand ≤ 3

/-- The invariants of 10_state.md R33 on one state: memory canonical, inside MEM_SIZE and of fitting values; `pc` in
`[0, CELL_MAX]`; `rb` fits, and stays 0 on NARROW (R24); queue elements fit; the latch holds a legal record; CAPACITY is
within MEM_SIZE and 0 on NARROW (00_scope.md R6). MEM_SIZE itself has no bound (log 9). R33's last bullet, about what
changes after an error, speaks of two states and is `Obligations.OnlyQueuesChangeAfterAnError` (log 8). -/
structure State.Inv (s : State) : Prop where
  memWf       : s.mem.wf = true
  memInside   : ∀ c ∈ s.mem, c.1 < s.cfg.memSize
  memFits     : ∀ c ∈ s.mem, s.cfg.variant.fits c.2
  pcMax       : (s.pc : Int) ≤ s.cfg.variant.cellMax
  rbFits      : s.cfg.variant.fits s.rb
  rbNarrow    : s.cfg.variant = .narrow → s.rb = 0
  inqFits     : ∀ x ∈ s.inq, s.cfg.variant.fits x
  outqFits    : ∀ x ∈ s.outq, s.cfg.variant.fits x
  errOk       : ∀ e, s.err = some e → e.ok
  capMax      : s.cfg.capacity ≤ s.cfg.memSize
  capNarrow   : s.cfg.variant = .narrow → s.cfg.capacity = 0

/-- The state after `n` host steps, whatever they report. -/
def stepsFrom : Nat → State → State
  | 0, s => s
  | n + 1, s => stepsFrom n (hostStep s).1

/-- A safe run: no step of it reports an error (70_reset_and_hazards.md, 92 D4: a fault can be proved to be avoided). -/
def State.Safe (s : State) : Prop := ∀ n e, (hostStep (stepsFrom n s)).2 ≠ .error e

/-- The run comes to HALT (43_control.md R145). -/
def State.Halts (s : State) : Prop := ∃ n, (hostStep (stepsFrom n s)).2 = .halt

/-- The state after the host pushes a list of values, first one first (60_exceptions.md R188). -/
def State.feed (s : State) (xs : List Int) : State := { s with inq := s.inq ++ xs }

/-- A run fed piecewise (40_pipeline.md R95): the host runs with a step budget of `n`, and whenever WAIT is reported it
pushes the next piece and runs again. -/
def runFed (n : Nat) : List (List Int) → State → State × Status
  | [], s => run n s
  | c :: cs, s =>
    match run n s with
    | (t, .wait) => runFed n cs (t.feed c)
    | r => r

/-- The same state on the extended core (40_pipeline.md R96). -/
def State.widen (s : State) : State :=
  { s with cfg := { s.cfg with variant := .extended } }

end Sys2Proof.Machine
end

