-- ==== Sys2Proof/Certificates/Slice0/Obligations.lean ====
section
/-! DEFINITION. The statements for the provers, one `def Obligations.<Name> : Prop` each, and the words they are written
in (namespace `Sys2Proof.Claims`). Each docstring names the rule or the section of spec/ it formalises, and the log entry
where it rests on a choice. -/

open Sys2Proof Sys2Proof.Machine

/-! Words of the statements. -/

namespace Sys2Proof.Claims

/-- What a step that raises gives: the latch set, and the record reported (40_pipeline.md R89). -/
def raised (s : State) (t : Trap) : State × Status := (s.raise t, .error (s.errInfo t))

/-- The operand count of an opcode (30_encoding.md R65). -/
def operandCount : Nat → Nat
  | 1 => 3
  | 2 => 3
  | 3 => 1
  | 4 => 1
  | 5 => 2
  | 6 => 2
  | 7 => 3
  | 8 => 3
  | 9 => 1
  | _ => 0

/-- The opcodes with a write operand, which is their last (30_encoding.md R66). -/
def writes : List Nat := [1, 2, 3, 7, 8]

/-- The legal instruction words, as spec/opcode_table.json lists them row by row. -/
def tableWords : Variant → List Int
  | .narrow =>
    [1, 101, 1001, 1101] ++
    [2, 102, 1002, 1102] ++
    [3] ++
    [4, 104] ++
    [5, 105, 1005, 1105] ++
    [6, 106, 1006, 1106] ++
    [7, 107, 1007, 1107] ++
    [8, 108, 1008, 1108] ++
    [99]
  | .extended =>
    [1, 101, 201, 1001, 1101, 1201, 2001, 2101, 2201, 20001, 20101, 20201, 21001, 21101, 21201, 22001, 22101, 22201] ++
    [2, 102, 202, 1002, 1102, 1202, 2002, 2102, 2202, 20002, 20102, 20202, 21002, 21102, 21202, 22002, 22102, 22202] ++
    [3, 203] ++
    [4, 104, 204] ++
    [5, 105, 205, 1005, 1105, 1205, 2005, 2105, 2205] ++
    [6, 106, 206, 1006, 1106, 1206, 2006, 2106, 2206] ++
    [7, 107, 207, 1007, 1107, 1207, 2007, 2107, 2207, 20007, 20107, 20207, 21007, 21107, 21207, 22007, 22107, 22207] ++
    [8, 108, 208, 1008, 1108, 1208, 2008, 2108, 2208, 20008, 20108, 20208, 21008, 21108, 21208, 22008, 22108, 22208] ++
    [9, 109, 209] ++
    [99]

/-- MEM_SIZE of an image and an asked capacity: NARROW takes no capacity (70_reset_and_hazards.md R201). -/
def sizeFor : Variant → List Int → Nat → Nat
  | .narrow, image, _ => image.length
  | .extended, image, capacity => max image.length capacity

/-- A machine that can step: no error is latched, and `pc` is inside memory. -/
def ready (s : State) : Prop := s.err = none ∧ s.pc < s.cfg.memSize

/-- The word at `pc` is the number `n`. -/
def wordIs (s : State) (n : Nat) : Prop := s.readCell s.pc = (n : Int)

/-- The mode digits of the first `j` operands are legal. -/
def digitsLegal (v : Variant) (n j : Nat) : Prop := ∀ k, 1 ≤ k → k ≤ j → digit n (k + 1) ∈ v.modes

/-- The cells of an instruction stand in memory from `pc` on. -/
def placed (i : Instr) (s : State) : Prop := ∀ k x, (encode i)[k]? = some x → s.readCell (s.pc + k) = x

/-- The write operand of an instruction, with its number. -/
def target : Instr → Option (Nat × Dst)
  | .add _ _ t => some (3, t)
  | .mul _ _ t => some (3, t)
  | .inp t => some (1, t)
  | .out _ => none
  | .jt _ _ => none
  | .jf _ _ => none
  | .lt _ _ t => some (3, t)
  | .eq _ _ t => some (3, t)
  | .arb _ => none
  | .halt => none

/-- A read operand is not in Relative mode. -/
def srcPlain (a : Src) : Prop := a.mode ≠ .relative

/-- A write operand is not in Relative mode. -/
def dstPlain (t : Dst) : Prop := t.mode ≠ .relative

/-- No operand of the instruction is in Relative mode. -/
def plain : Instr → Prop
  | .add a b t => srcPlain a ∧ srcPlain b ∧ dstPlain t
  | .mul a b t => srcPlain a ∧ srcPlain b ∧ dstPlain t
  | .inp t => dstPlain t
  | .out a => srcPlain a
  | .jt c g => srcPlain c ∧ srcPlain g
  | .jf c g => srcPlain c ∧ srcPlain g
  | .lt a b t => srcPlain a ∧ srcPlain b ∧ dstPlain t
  | .eq a b t => srcPlain a ∧ srcPlain b ∧ dstPlain t
  | .arb d => srcPlain d
  | .halt => True

/-- `pc` has advanced by `n`: to the sum where that is at most CELL_MAX (10_state.md R22), and never past CELL_MAX (R21), nor
back (R23). -/
def advanced (n : Nat) (s t : State) : Prop :=
  (((s.pc + n : Nat) : Int) ≤ s.cfg.variant.cellMax → t.pc = s.pc + n) ∧
  (t.pc : Int) ≤ s.cfg.variant.cellMax ∧
  ((s.pc : Int) ≤ s.cfg.variant.cellMax → s.pc ≤ t.pc)

/-- Where `pc` stands after a committed jump: the target's value when `jumps` holds of the condition, else 3 further. -/
def jumpPc (jumps : Int → Prop) (c g : Src) (s t : State) : Prop :=
  ∃ x y, s.val 1 c = .ok x ∧ s.val 2 g = .ok y ∧
    (jumps x → (t.pc : Int) = y) ∧ (¬ jumps x → advanced 3 s t)

/-- Where `pc` stands after a committed instruction (10_state.md R22). -/
def pcAfter (i : Instr) (s t : State) : Prop :=
  match i with
  | .add _ _ _ => advanced 4 s t
  | .mul _ _ _ => advanced 4 s t
  | .inp _ => advanced 2 s t
  | .out _ => advanced 2 s t
  | .jt c g => jumpPc (fun x => x ≠ 0) c g s t
  | .jf c g => jumpPc (fun x => x = 0) c g s t
  | .lt _ _ _ => advanced 4 s t
  | .eq _ _ _ => advanced 4 s t
  | .arb _ => advanced 2 s t
  | .halt => t.pc = s.pc

/-- How the queues stand after a committed instruction (42_io.md R122). -/
def queuesAfter (i : Instr) (s t : State) : Prop :=
  match i with
  | .inp _ => (∃ v, s.inq = v :: t.inq) ∧ t.outq = s.outq
  | .out a => (∃ x, s.val 1 a = .ok x ∧ t.outq = s.outq ++ [x]) ∧ t.inq = s.inq
  | _ => t.inq = s.inq ∧ t.outq = s.outq

/-- One `ws int ws` of the program text's grammar (70_reset_and_hazards.md R207). -/
structure TextItem where
  before : List Char
  minus  : Bool
  digits : List Char
  after  : List Char

namespace TextItem

/-- Its parts are what the grammar allows. -/
def legal (x : TextItem) : Prop :=
  (∀ c ∈ x.before, c = ' ' ∨ c = '\t' ∨ c = '\r' ∨ c = '\n') ∧
  (∀ c ∈ x.after, c = ' ' ∨ c = '\t' ∨ c = '\r' ∨ c = '\n') ∧
  x.digits ≠ [] ∧ (∀ c ∈ x.digits, 48 ≤ c.toNat ∧ c.toNat ≤ 57)

/-- Its characters. -/
def chars (x : TextItem) : List Char :=
  x.before ++ (if x.minus then ['-'] else []) ++ x.digits ++ x.after

/-- Its decimal value. -/
def value (x : TextItem) : Int :=
  let n : Int := x.digits.foldl (fun acc c => 10 * acc + ((c.toNat : Int) - 48)) 0
  if x.minus then -n else n

end TextItem

/-- `text ::= ws int ws ("," ws int ws)*`: the items, one at least, joined by commas (R207). -/
def textOf : List TextItem → List Char
  | [] => []
  | [x] => x.chars
  | x :: y :: xs => x.chars ++ ',' :: textOf (y :: xs)

end Sys2Proof.Claims

open Sys2Proof.Claims

/-! Encoding (30_encoding.md). -/

/-- Decode and encode agree, for every well-formed instruction of either variant and any cells after it (30_encoding.md,
"Instruction word and formats" and the encoding function; the encoding function is the spec's derivation). -/
def Obligations.DecodeOfEncodeIsTheInstruction : Prop :=
  ∀ (v : Variant) (i : Instr) (rest : List Int), i.wf v = true → decode v (encode i ++ rest) = .ok (i, rest)

/-- A word that decodes is the encoding of what it decodes to: no digit is ignored (30_encoding.md; that excess digits are
not ignored is the spec's decision D6). -/
def Obligations.DecodedWordIsItsEncoding : Prop :=
  ∀ (v : Variant) (w : Int) (f : Form), decodeWord v w = .ok f → w = (f.word : Int)

/-- The words that decode are exactly the legal words of spec/opcode_table.json, 28 on NARROW and 99 on EXTENDED
(30_encoding.md, "Illegal encodings"; the counts are the spec's derivation). -/
def Obligations.LegalWordsAreTheTables : Prop :=
  (∀ (v : Variant) (w : Int), (∃ f, decodeWord v w = .ok f) ↔ w ∈ tableWords v) ∧
  (tableWords .narrow).length = 28 ∧ (tableWords .extended).length = 99 ∧
  (tableWords .narrow).Nodup ∧ (tableWords .extended).Nodup

/-- Words written out from the spec decode to the instruction they stand for: the examples of the encoding function, and
one word of each opcode besides (30_encoding.md). -/
def Obligations.SampleWordsDecode : Prop :=
  decodeWord .extended 1102 = .ok (.mul .immediate .immediate .position) ∧
  decodeWord .extended 109 = .ok (.arb .immediate) ∧
  decodeWord .extended 204 = .ok (.out .relative) ∧
  decodeWord .narrow 1001 = .ok (.add .position .immediate .position) ∧
  decodeWord .narrow 1008 = .ok (.eq .position .immediate .position) ∧
  decodeWord .narrow 1006 = .ok (.jf .position .immediate) ∧
  decodeWord .extended 203 = .ok (.inp .relative) ∧
  decodeWord .narrow 105 = .ok (.jt .immediate .position) ∧
  decodeWord .extended 21107 = .ok (.lt .immediate .immediate .relative) ∧
  decodeWord .narrow 99 = .ok .halt

/-- R68: an opcode not in OPCODES raises UNKNOWN_OPCODE with the word; the first mode digit of a used operand not in MODES
raises UNKNOWN_MODE with the operand's number and the digit. -/
def Obligations.UnknownOpcodesAndModesRaise : Prop :=
  ∀ (s : State) (n : Nat), ready s → wordIs s n →
    (n % 100 ∉ s.cfg.variant.opcodes → hostStep s = raised s ⟨.unknownOpcode, 0, n⟩) ∧
    (n % 100 ∈ s.cfg.variant.opcodes → ∀ k, 1 ≤ k → k ≤ operandCount (n % 100) →
      digitsLegal s.cfg.variant n (k - 1) → digit n (k + 1) ∉ s.cfg.variant.modes →
      hostStep s = raised s ⟨.unknownMode, k, digit n (k + 1)⟩)

/-- A negative word at `pc` raises UNKNOWN_OPCODE (30_encoding.md, negative words; the spec's decision D7). -/
def Obligations.NegativeWordRaisesUnknownOpcode : Prop :=
  ∀ (s : State) (w : Int), ready s → s.readCell s.pc = w → w < 0 → hostStep s = raised s ⟨.unknownOpcode, 0, w⟩

/-- A nonzero digit beyond the operand count raises UNKNOWN_MODE with operand 0 and the word (30_encoding.md, digits beyond
the operand count; the spec's decision D6). For HALT this makes 99 the only halt word. -/
def Obligations.ExcessDigitsRaiseUnknownMode : Prop :=
  ∀ (s : State) (n : Nat), ready s → wordIs s n → n % 100 ∈ s.cfg.variant.opcodes →
    digitsLegal s.cfg.variant n (operandCount (n % 100)) → 10 ^ operandCount (n % 100) ≤ n / 100 →
    hostStep s = raised s ⟨.unknownMode, 0, n⟩

/-- A write operand in Immediate mode raises IMMEDIATE_WRITE with the operand's number and the word, before any operand is
resolved (30_encoding.md, immediate write target; its place in the order is the spec's decision D8). -/
def Obligations.ImmediateTargetRaises : Prop :=
  ∀ (s : State) (n : Nat), ready s → wordIs s n → n % 100 ∈ writes →
    digitsLegal s.cfg.variant n (operandCount (n % 100)) → n / 100 < 10 ^ operandCount (n % 100) →
    digit n (operandCount (n % 100) + 1) = 1 →
    hostStep s = raised s ⟨.immediateWrite, operandCount (n % 100), n⟩

/-! The step (40_pipeline.md). -/

/-- When the cells at `pc` decode, the step is the meaning of the decoded instruction; the model adds nothing around it
(40_pipeline.md, stages). -/
def Obligations.StepRunsTheFetchedInstruction : Prop :=
  ∀ (s : State) (i : Instr) (rest : List Int), ready s → decode s.cfg.variant s.window = .ok (i, rest) →
    step s = exec i s

/-- A well-formed instruction whose cells stand at `pc` is what the step runs and reports (40_pipeline.md, stages;
30_encoding.md, instruction shape). -/
def Obligations.StepRunsAPlacedInstruction : Prop :=
  ∀ (s : State) (i : Instr), s.err = none → i.wf s.cfg.variant = true → s.pc + i.length ≤ s.cfg.memSize →
    placed i s → step s = exec i s ∧ hostStep s = (s.conclude (ending i s), s.statusOf (ending i s))

/-- R82: a `pc` past the end halts and writes nothing; otherwise the instruction word is the current contents of the cell
at `pc`, and decides what the step does: its decode error is raised, or its form is run on the operand words after it. -/
def Obligations.FetchReadsTheWordAtPcOrHalts : Prop :=
  ∀ (s : State), s.err = none →
    (s.cfg.memSize ≤ s.pc → hostStep s = (s, .halt)) ∧
    (s.pc < s.cfg.memSize →
      (∀ t, decodeWord s.cfg.variant (s.readCell s.pc) = .error t → hostStep s = raised s t) ∧
      (∀ f, decodeWord s.cfg.variant (s.readCell s.pc) = .ok f → s.pc + f.length ≤ s.cfg.memSize →
        ∃ i, i.form = f ∧ i.operandWords = (List.range f.operands).map (fun k => s.readCell (s.pc + 1 + k)) ∧
          step s = exec i s))

/-- An instruction that runs past the end of memory raises MISSING_OPERAND with the first missing operand and the first
missing cell (40_pipeline.md, operand fetch; the record and the order are the spec's decisions D15 and D8). -/
def Obligations.MissingOperandRaises : Prop :=
  ∀ (s : State) (f : Form), ready s → decodeWord s.cfg.variant (s.readCell s.pc) = .ok f →
    s.cfg.memSize < s.pc + f.length →
    hostStep s = raised s ⟨.missingOperand, s.cfg.memSize - s.pc, s.cfg.memSize⟩

/-- A latched error is reported by every later step, which changes nothing (40_pipeline.md, latch; the spec's decision
D14). -/
def Obligations.LatchedErrorIsReportedForEver : Prop :=
  ∀ (s : State) (e : ErrInfo) (n : Nat), s.err = some e →
    stepsFrom n s = s ∧ hostStep (stepsFrom n s) = (s, .error e)

/-- The model's step is total, and is the state half of the step the host sees: no fault, no refusal (40_pipeline.md, one
outcome per step; that the outcome is reported beside the state is the model's choice, log 6). -/
def Obligations.StepAlwaysAnswersANextState : Prop :=
  ∀ (s : State), step s = .next (hostStep s).1

/-- Only OK changes state: WAIT and HALT leave all of it, ERROR all but the latch, which holds the reported record
(40_pipeline.md, "One outcome per step" and "No speculation is visible", both derived by the spec). -/
def Obligations.OnlyOkChangesState : Prop :=
  ∀ (s t : State) (st : Status), hostStep s = (t, st) →
    (st = .wait → t = s) ∧ (st = .halt → t = s) ∧ (∀ e, st = .error e → t = { s with err := some e })

/-- HALT is idempotent, and no host operation ends it (40_pipeline.md, "Halt is idempotent", derived by the spec). -/
def Obligations.HaltStaysHalted : Prop :=
  ∀ (s : State), (hostStep s).2 = .halt →
    hostStep s = (s, .halt) ∧ ∀ op : HostOp, (hostStep (hostOp op s).1).2 = .halt

/-- WAIT is idempotent under every host operation but an accepted push; after one, the next step runs the same IN on the
same target, `pc` 2 further (`nextPc`, log 9; 40_pipeline.md, "Wait is idempotent and resumable", derived by the
spec). -/
def Obligations.WaitLastsUntilAPush : Prop :=
  ∀ (s : State), (hostStep s).2 = .wait →
    hostStep s = (s, .wait) ∧
    (∀ op : HostOp, (hostOp op s).1.inq = [] → (hostStep (hostOp op s).1).2 = .wait) ∧
    (∃ d l, s.fetch = .instr (.inp d) ∧ s.loc 1 d = .ok l ∧
      ∀ v u, s.push v = some u →
        hostStep u = ({ s with mem := s.mem.write l v, pc := s.nextPc 2, inq := [] }, .ok))

/-- Feeding input early or piecewise at each WAIT comes to the same memory, output and outcome: the run fed all at once
reaches the piecewise run's end, with the pieces it did not read still queued (40_pipeline.md, "Resumption equivalence",
derived by the spec). A run's step budget, and its answer `ok` when that ends, are the model's choice (log 15). -/
def Obligations.FeedingEarlyOrPiecewiseIsTheSame : Prop :=
  ∀ (n : Nat) (pieces : List (List Int)) (s : State),
    ∃ (m : Nat) (left : List Int),
      run m (s.feed pieces.flatten) = ((runFed n pieces s).1.feed left, (runFed n pieces s).2)

/-- A narrow run without an error is the extended core's run on the same image and input, with CAPACITY 0
(40_pipeline.md, "Narrow runs on the extended core", derived by the spec), where MEM_SIZE is at most the narrow
CELL_MAX: beyond it the two cores' bounds on `pc` part (10_state.md R21, log 9). A run's step budget, and its answer
`ok` when that ends, are the model's choice (log 15). -/
def Obligations.NarrowRunsOnTheExtendedCore : Prop :=
  (∀ (n : Nat) (s t : State) (st : Status), s.cfg.variant = .narrow →
    (s.cfg.memSize : Int) ≤ Variant.narrow.cellMax → run n s = (t, st) → (∀ e, st ≠ .error e) →
    run n s.widen = (t.widen, st)) ∧
  (∀ (image input : List Int) (capacity : Nat),
    (State.ofImage .narrow image input capacity).widen = State.ofImage .extended image input 0)

/-- Every step keeps the invariants of the state, and the configuration (10_state.md, "Access summary and invariants",
derived by the spec). That `pc` stays at most CELL_MAX in a memory of any size rests on the model's choice for an
advance past CELL_MAX, log 9. -/
def Obligations.StepKeepsTheInvariants : Prop :=
  ∀ (s t : State), s.Inv → step s = .next t → t.Inv ∧ t.cfg = s.cfg

/-- The reset state meets the invariants (its variant and size are the model's choice, log 3). -/
def Obligations.ResetMeetsTheInvariants : Prop := State.reset.Inv

/-- Every host operation on an instance keeps the invariants and the configuration, and every host action on the
instances held keeps the invariants of each (10_state.md, "Access summary and invariants", derived by the spec). The
bound on `pc` rests, as a step's does, on log 9; what may change after an error is left to another statement, log 8; the
list of instances is log 14's. -/
def Obligations.HostOperationsKeepTheInvariants : Prop :=
  (∀ (s : State) (op : HostOp), s.Inv → (hostOp op s).1.Inv ∧ (hostOp op s).1.cfg = s.cfg) ∧
  (∀ (fleet : List State) (op : FleetOp), (∀ s ∈ fleet, s.Inv) → ∀ s ∈ (fleetOp op fleet).1, s.Inv)

/-- A constructed instance meets the invariants, whatever its size (10_state.md, "Access summary and invariants", derived by
the spec; 70_reset_and_hazards.md, construction). -/
def Obligations.ConstructionMeetsTheInvariants : Prop :=
  ∀ (v : Variant) (text : List Char) (input : List Int) (capacity : Nat) (s : State),
    construct v text input capacity = .ok s → s.Inv

/-- After an error no operation changes anything but the queues: input by a push, output by a pop (10_state.md,
invariants, and 60_exceptions.md, input push, where the two part; the model follows the latter, log 8). -/
def Obligations.OnlyQueuesChangeAfterAnError : Prop :=
  ∀ (s : State) (op : HostOp) (e : ErrInfo), s.err = some e →
    (hostOp op s).1.cfg = s.cfg ∧ (hostOp op s).1.mem = s.mem ∧ (hostOp op s).1.pc = s.pc ∧
    (hostOp op s).1.rb = s.rb ∧ (hostOp op s).1.err = s.err ∧
    ((∀ v, op ≠ .push v) → (hostOp op s).1.inq = s.inq) ∧
    (op ≠ .popFront → op ≠ .popBack → (hostOp op s).1.outq = s.outq)

/-- How `pc` advances, for each committed instruction at any `pc`; a step that does not commit leaves it (10_state.md,
"How `pc` advances"). `nextPc`, which the instructions' statements name, is the sum where that is at most CELL_MAX; past
it, where the spec's rules on `pc` part, it is a free value from `pc` to CELL_MAX, the model's choice (log 9). -/
def Obligations.PcAdvancesByTheFormat : Prop :=
  (∀ (s : State) (n : Nat), advanced n s { s with pc := s.nextPc n }) ∧
  (∀ (s t : State) (i : Instr), s.fetch = .instr i → hostStep s = (t, .ok) → pcAfter i s t) ∧
  (∀ (s t : State) (st : Status), hostStep s = (t, st) → st ≠ .ok → t.pc = s.pc)

/-- R31: blocked and halted are the stated conditions, recomputed from the state by every step of a machine without an
error, and they are when a step reports WAIT and HALT. -/
def Obligations.BlockedAndHaltedAreConditions : Prop :=
  ∀ (s : State), s.err = none →
    ((hostStep s).2 = .wait ↔ s.blocked = true) ∧
    (s.blocked = true ↔ ∃ d l, s.fetch = .instr (.inp d) ∧ s.loc 1 d = .ok l ∧ s.inq = []) ∧
    ((hostStep s).2 = .halt ↔ s.halted = true) ∧
    (s.halted = true ↔ s.cfg.memSize ≤ s.pc ∨ s.readCell s.pc = 99)

/-- R162: the relative base is the base of a Relative operand's address, and nothing else reads it: what is fetched does not
depend on it, and an instruction without a Relative operand does the same whatever it holds, `pc` included; ARB adds to
it. -/
def Obligations.RelativeBaseOnlyMovesRelativeOperands : Prop :=
  (∀ (s : State) (k : Nat) (o : Int), s.cfg.variant = .extended →
    s.val k (.rel o) = s.val k (.pos (s.rb + o)) ∧ s.loc k (.rel o) = s.loc k (.pos (s.rb + o))) ∧
  (∀ (s : State) (r : Int), { s with rb := r }.fetch = s.fetch) ∧
  (∀ (s : State) (r : Int) (i : Instr), s.fetch = .instr i → plain i → (∀ d, i ≠ .arb d) →
    hostStep { s with rb := r } = ({ (hostStep s).1 with rb := r }, (hostStep s).2)) ∧
  (∀ (s : State) (r x : Int) (d : Src), s.fetch = .instr (.arb d) → srcPlain d → s.val 1 d = .ok x →
    s.cfg.variant.fits (s.rb + x) → s.cfg.variant.fits (r + x) →
    hostStep { s with rb := r } = ({ (hostStep s).1 with rb := r + x }, .ok))

/-- R122: values enter in FIFO order, one per IN, and leave in the order OUT commits them, one per OUT at the back; no
other instruction touches a queue; the host's pops take from either end. -/
def Obligations.QueuesKeepTheirOrder : Prop :=
  (∀ (s t : State) (i : Instr), s.fetch = .instr i → hostStep s = (t, .ok) → queuesAfter i s t) ∧
  (∀ (s : State) (v : Int) (q : List Int), s.outq = v :: q → s.popFront = (some v, { s with outq := q })) ∧
  (∀ (s : State) (v : Int) (q : List Int), s.outq = q ++ [v] → s.popBack = (some v, { s with outq := q }))

/-! Frames. -/

/-- Memory's frame for every instruction: only the cell its write operand resolves to may change; all of memory stays where
that operand does not resolve, and for the instructions without one (20_memory.md, access width and side effects). -/
def Obligations.MemoryChangesOnlyAtTheTarget : Prop :=
  ∀ (i : Instr) (s t : State), exec i s = .next t →
    (∀ k d l, target i = some (k, d) → s.loc k d = .ok l → ∀ a, a ≠ l → t.readCell a = s.readCell a) ∧
    (∀ k d e, target i = some (k, d) → s.loc k d = .error e → ∀ a, t.readCell a = s.readCell a) ∧
    (target i = none → ∀ a, t.readCell a = s.readCell a)

/-- The frame of everything but memory and `pc`: the configuration stays; ARB alone writes `rb`, IN alone `inq`, OUT alone
`outq`; the latch changes only by raising, and then nothing else does (10_state.md, access matrix). -/
def Obligations.InstructionsChangeOnlyTheirRegisters : Prop :=
  ∀ (i : Instr) (s t : State), exec i s = .next t →
    t.cfg = s.cfg ∧
    ((∀ d, i ≠ .arb d) → t.rb = s.rb) ∧
    ((∀ d, i ≠ .inp d) → t.inq = s.inq) ∧
    ((∀ a, i ≠ .out a) → t.outq = s.outq) ∧
    (t.err = s.err ∨ ∃ trap, t = s.raise trap)

/-! The instructions (41_alu.md to 44_relative_base.md). -/

/-- ADD completes: the exact sum is written, `pc` advances by 4 (`nextPc`, log 9), nothing else changes (41_alu.md,
ADD). -/
def Obligations.AddWritesTheSum : Prop :=
  ∀ (s : State) (a b : Src) (t : Dst) (x y : Int) (l : Nat),
    s.val 1 a = .ok x → s.val 2 b = .ok y → s.loc 3 t = .ok l → s.cfg.variant.fits (x + y) →
    exec (.add a b t) s = .next { s with mem := s.mem.write l (x + y), pc := s.nextPc 4 }

/-- MUL completes: the exact product is written, `pc` advances by 4 (`nextPc`, log 9), nothing else changes (41_alu.md,
MUL). -/
def Obligations.MulWritesTheProduct : Prop :=
  ∀ (s : State) (a b : Src) (t : Dst) (x y : Int) (l : Nat),
    s.val 1 a = .ok x → s.val 2 b = .ok y → s.loc 3 t = .ok l → s.cfg.variant.fits (x * y) →
    exec (.mul a b t) s = .next { s with mem := s.mem.write l (x * y), pc := s.nextPc 4 }

/-- LT completes: 1 if less, signed, else 0, `pc` advances by 4 (`nextPc`, log 9), nothing else changes (41_alu.md, LT;
the values 1 and 0 are the spec's decision D5, log 11). -/
def Obligations.LtWritesTheComparison : Prop :=
  ∀ (s : State) (a b : Src) (t : Dst) (x y : Int) (l : Nat),
    s.val 1 a = .ok x → s.val 2 b = .ok y → s.loc 3 t = .ok l →
    exec (.lt a b t) s = .next { s with mem := s.mem.write l (if x < y then 1 else 0), pc := s.nextPc 4 }

/-- EQ completes: 1 if equal, else 0, `pc` advances by 4 (`nextPc`, log 9), nothing else changes (41_alu.md, EQ; the
values 1 and 0 are the spec's decision D5, log 11). -/
def Obligations.EqWritesTheComparison : Prop :=
  ∀ (s : State) (a b : Src) (t : Dst) (x y : Int) (l : Nat),
    s.val 1 a = .ok x → s.val 2 b = .ok y → s.loc 3 t = .ok l →
    exec (.eq a b t) s = .next { s with mem := s.mem.write l (if x = y then 1 else 0), pc := s.nextPc 4 }

/-- An ADD or MUL result that does not fit raises ARITHMETIC_OVERFLOW with operand 0 and the exact result, and is not
written (41_alu.md, width and overflow; the spec's decision D4, log 16). -/
def Obligations.AddAndMulOverflowRaise : Prop :=
  ∀ (s : State) (a b : Src) (t : Dst) (x y : Int) (l : Nat),
    s.val 1 a = .ok x → s.val 2 b = .ok y → s.loc 3 t = .ok l →
    (¬ s.cfg.variant.fits (x + y) →
      exec (.add a b t) s = .next (s.raise ⟨.arithmeticOverflow, 0, x + y⟩)) ∧
    (¬ s.cfg.variant.fits (x * y) →
      exec (.mul a b t) s = .next (s.raise ⟨.arithmeticOverflow, 0, x * y⟩))

/-- IN completes on a queue with a value: the front is popped and written, `pc` advances by 2 (`nextPc`, log 9), nothing
else changes (42_io.md, IN). -/
def Obligations.InWritesTheFrontOfTheQueue : Prop :=
  ∀ (s : State) (t : Dst) (l : Nat) (v : Int) (q : List Int), s.loc 1 t = .ok l → s.inq = v :: q →
    exec (.inp t) s = .next { s with mem := s.mem.write l v, pc := s.nextPc 2, inq := q }

/-- IN on an empty queue reports WAIT and changes nothing, once its target resolves; an invalid target is an error whether
or not input is queued (42_io.md, IN; the order is the spec's decision D9). -/
def Obligations.InWaitsOnAnEmptyQueue : Prop :=
  ∀ (s : State) (t : Dst),
    (∀ l, s.loc 1 t = .ok l → s.inq = [] → exec (.inp t) s = .next s ∧ s.statusOf (ending (.inp t) s) = .wait) ∧
    (∀ e, s.loc 1 t = .error e → exec (.inp t) s = .next (s.raise e))

/-- OUT completes: its value is appended, `pc` advances by 2 (`nextPc`, log 9), nothing else changes; it never blocks
(42_io.md, OUT). -/
def Obligations.OutAppendsItsValue : Prop :=
  ∀ (s : State) (a : Src) (x : Int), s.val 1 a = .ok x →
    exec (.out a) s = .next { s with pc := s.nextPc 2, outq := s.outq ++ [x] }

/-- JT completes: taken to the target when the condition is nonzero, else 3 further (`nextPc`, log 9); nothing else
changes (43_control.md, JT). -/
def Obligations.JtJumpsWhenNonzero : Prop :=
  ∀ (s : State) (c g : Src) (x y : Int), s.val 1 c = .ok x → s.val 2 g = .ok y →
    (x ≠ 0 → 0 ≤ y → exec (.jt c g) s = .next { s with pc := y.toNat }) ∧
    (x = 0 → exec (.jt c g) s = .next { s with pc := s.nextPc 3 })

/-- JF completes: taken to the target when the condition is zero, else 3 further (`nextPc`, log 9); nothing else changes
(43_control.md, JF). -/
def Obligations.JfJumpsWhenZero : Prop :=
  ∀ (s : State) (c g : Src) (x y : Int), s.val 1 c = .ok x → s.val 2 g = .ok y →
    (x = 0 → 0 ≤ y → exec (.jf c g) s = .next { s with pc := y.toNat }) ∧
    (x ≠ 0 → exec (.jf c g) s = .next { s with pc := s.nextPc 3 })

/-- A taken jump to a negative target raises INVALID_JUMP_TARGET with operand 2 and the target (43_control.md, jump
targets; the spec's decision D10). -/
def Obligations.NegativeJumpTargetRaises : Prop :=
  ∀ (s : State) (c g : Src) (x y : Int), s.val 1 c = .ok x → s.val 2 g = .ok y → y < 0 →
    (x ≠ 0 → exec (.jt c g) s = .next (s.raise ⟨.invalidJumpTarget, 2, y⟩)) ∧
    (x = 0 → exec (.jf c g) s = .next (s.raise ⟨.invalidJumpTarget, 2, y⟩))

/-- HALT completes: it changes nothing, and reports HALT (43_control.md, HALT). -/
def Obligations.HaltChangesNothing : Prop :=
  ∀ (s : State), exec .halt s = .next s ∧ s.statusOf (ending .halt s) = .halt

/-- ARB completes on the extended core: the exact sum becomes the base, `pc` advances by 2 (`nextPc`, log 9), nothing
else changes (44_relative_base.md, ARB). -/
def Obligations.ArbAddsToTheRelativeBase : Prop :=
  ∀ (s : State) (d : Src) (x : Int), s.cfg.variant = .extended → s.val 1 d = .ok x →
    s.cfg.variant.fits (s.rb + x) →
    exec (.arb d) s = .next { s with rb := s.rb + x, pc := s.nextPc 2 }

/-- ARB's other ends: a base that would not fit raises ARITHMETIC_OVERFLOW with operand 1 and the exact sum, the base
unchanged (44_relative_base.md, relative-base overflow; the spec's decision D12, log 16); on NARROW a fetched word with
opcode 9 raises UNKNOWN_OPCODE. -/
def Obligations.ArbOverflowAndNarrowRaise : Prop :=
  (∀ (s : State) (d : Src) (x : Int), s.cfg.variant = .extended → s.val 1 d = .ok x →
    ¬ s.cfg.variant.fits (s.rb + x) →
    exec (.arb d) s = .next (s.raise ⟨.arithmeticOverflow, 1, s.rb + x⟩)) ∧
  (∀ (s : State) (n : Nat), s.cfg.variant = .narrow → ready s → wordIs s n → n % 100 = 9 →
    hostStep s = raised s ⟨.unknownOpcode, 0, n⟩)

/-- The first operand that does not resolve, in operand order, ends the step with its error, for every instruction that
has operands; IN's is raised whether or not input is queued
(40_pipeline.md, resolve; the order is the spec's decision D8). -/
def Obligations.OperandErrorsEndTheStepInOrder : Prop :=
  (∀ (s : State) (a b : Src) (t : Dst) (i : Instr), i = .add a b t ∨ i = .mul a b t ∨ i = .lt a b t ∨ i = .eq a b t →
    (∀ e, s.val 1 a = .error e → exec i s = .next (s.raise e)) ∧
    (∀ x e, s.val 1 a = .ok x → s.val 2 b = .error e → exec i s = .next (s.raise e)) ∧
    (∀ x y e, s.val 1 a = .ok x → s.val 2 b = .ok y → s.loc 3 t = .error e → exec i s = .next (s.raise e))) ∧
  (∀ (s : State) (c g : Src) (i : Instr), i = .jt c g ∨ i = .jf c g →
    (∀ e, s.val 1 c = .error e → exec i s = .next (s.raise e)) ∧
    (∀ x e, s.val 1 c = .ok x → s.val 2 g = .error e → exec i s = .next (s.raise e))) ∧
  (∀ (s : State) (a : Src) (e : Trap), s.val 1 a = .error e →
    exec (.out a) s = .next (s.raise e) ∧
    (s.cfg.variant = .extended → exec (.arb a) s = .next (s.raise e))) ∧
  (∀ (s : State) (t : Dst) (e : Trap), s.loc 1 t = .error e → exec (.inp t) s = .next (s.raise e))

/-! The resolver (20_memory.md). -/

/-- The value of a read operand and the target of a write operand, by mode: Position the cell its word names, Immediate the
word, Relative (EXTENDED) the cell at the exact sum of the base and the word (20_memory.md, the operand address resolver;
the exact sum is the spec's decision D11). -/
def Obligations.OperandsResolveByMode : Prop :=
  ∀ (s : State) (k a : Nat) (n : Int), a < s.cfg.memSize →
    s.val k (.imm n) = .ok n ∧
    s.val k (.pos a) = .ok (s.readCell a) ∧ s.loc k (.pos a) = .ok a ∧
    (s.cfg.variant = .extended → s.rb + n = a → s.val k (.rel n) = .ok (s.readCell a) ∧ s.loc k (.rel n) = .ok a)

/-- A Position or Relative address outside memory raises INVALID_ADDRESS with the operand's number and the address, read or
written alike (20_memory.md, address range check; that memory does not grow is the spec's decision D3, log 16). -/
def Obligations.AddressesOutsideMemoryRaise : Prop :=
  ∀ (s : State) (k : Nat) (n : Int),
    (n < 0 ∨ (s.cfg.memSize : Int) ≤ n →
      s.val k (.pos n) = .error ⟨.invalidAddress, k, n⟩ ∧ s.loc k (.pos n) = .error ⟨.invalidAddress, k, n⟩) ∧
    (s.cfg.variant = .extended → s.rb + n < 0 ∨ (s.cfg.memSize : Int) ≤ s.rb + n →
      s.val k (.rel n) = .error ⟨.invalidAddress, k, s.rb + n⟩ ∧
      s.loc k (.rel n) = .error ⟨.invalidAddress, k, s.rb + n⟩)

/-- Position and Relative operands agree at base 0 (20_memory.md, the testable property, derived by the spec). -/
def Obligations.PositionAndRelativeAgreeAtBaseZero : Prop :=
  ∀ (s : State) (k : Nat) (n : Int), s.cfg.variant = .extended → s.rb = 0 →
    s.val k (.rel n) = s.val k (.pos n) ∧ s.loc k (.rel n) = s.loc k (.pos n)

/-! Memory (20_memory.md). -/

/-- A cell reads as last written, and a write changes only its cell (20_memory.md, side effects and consistency). -/
def Obligations.ReadAfterWrite : Prop :=
  ∀ (m : Memory) (a b : Nat) (v : Int), m.wf = true →
    (m.write a v).wf = true ∧ (m.write a v).read b = if b = a then v else m.read b

/-! The host interface (60_exceptions.md, 70_reset_and_hazards.md). -/

/-- A push appends a value that fits and refuses any other, changing nothing; popping an empty output queue gives none and
changes nothing; so in every state (60_exceptions.md, input push and output pop; the spec's decisions D24 and D25). That a
push appends after an error too follows R188 over R33's last bullet: DEDUCED, log 8. -/
def Obligations.PushesAppendAndEmptyPopsGiveNone : Prop :=
  ∀ (s : State),
    (∀ v, s.cfg.variant.fits v → hostOp (.push v) s = ({ s with inq := s.inq ++ [v] }, .accepted)) ∧
    (∀ v, ¬ s.cfg.variant.fits v → hostOp (.push v) s = (s, .refused)) ∧
    (s.outq = [] → hostOp .popFront s = (s, .popped none) ∧ hostOp .popBack s = (s, .popped none))

/-- Inspection changes nothing and shows the cell or the register asked for (60_exceptions.md, state inspection; that a cell
outside memory is shown as none is the model's choice, log 14). -/
def Obligations.InspectionShowsTheState : Prop :=
  ∀ (s : State) (a : Nat) (q : Query),
    (hostOp (.inspect q) s).1 = s ∧
    (a < s.cfg.memSize → s.inspect (.cell a) = .value (s.readCell a)) ∧
    (s.cfg.memSize ≤ a → s.inspect (.cell a) = .noCell) ∧
    s.inspect .pc = .value s.pc ∧ s.inspect .rb = .value s.rb ∧ s.inspect .err = .error s.err ∧
    s.inspect .memSize = .value s.cfg.memSize ∧ s.inspect .inq = .values s.inq ∧ s.inspect .outq = .values s.outq

/-- The run loop steps while the outcome is `ok` and stops on any other, which it answers (60_exceptions.md, host run
loops). Its step budget, and its answer `ok` with the state after the last step when the budget ends, are the model's
choice (log 15). -/
def Obligations.RunStopsAtTheFirstOtherOutcome : Prop :=
  ∀ (n : Nat) (s : State),
    ((∀ k, k < n → (hostStep (stepsFrom k s)).2 = .ok) → run n s = (stepsFrom n s, .ok)) ∧
    (∀ k, k < n → (∀ j, j < k → (hostStep (stepsFrom j s)).2 = .ok) → (hostStep (stepsFrom k s)).2 ≠ .ok →
      run n s = hostStep (stepsFrom k s))

/-- An operation on one instance leaves every other; a clone is a new instance equal to its original, which stays
(60_exceptions.md, clone and several instances; the numbering is the model's choice, log 14). -/
def Obligations.InstancesAreIndependent : Prop :=
  ∀ (fleet : List State) (i j : Nat) (op : HostOp) (s : State), fleet[i]? = some s →
    (fleetOp (.on i op) fleet).1[i]? = some (hostOp op s).1 ∧
    (j ≠ i → (fleetOp (.on i op) fleet).1[j]? = fleet[j]?) ∧
    (fleetOp (.clone i) fleet).1[fleet.length]? = some s ∧
    (j < fleet.length → (fleetOp (.clone i) fleet).1[j]? = fleet[j]?)

/-- Construction follows its procedure: image, zero padding, MEM_SIZE, and the reset values of every field
(70_reset_and_hazards.md, construction procedure and memory size; 10_state.md, reset values; the empty `outq` and latch are
the spec's decisions D32 and D14). -/
def Obligations.ConstructionSetsTheResetValues : Prop :=
  ∀ (v : Variant) (text : List Char) (input image : List Int) (capacity : Nat),
    parseProgram v text = some image → (∀ x ∈ input, v.fits x) →
    ∃ s, construct v text input capacity = .ok s ∧
      (∀ a, a < image.length → s.readCell a = image.getD a 0) ∧
      (∀ a, image.length ≤ a → s.readCell a = 0) ∧
      s.cfg.variant = v ∧ s.cfg.memSize = sizeFor v image capacity ∧
      (v = .narrow → s.cfg.capacity = 0) ∧ (v = .extended → s.cfg.capacity = capacity) ∧
      s.pc = 0 ∧ s.rb = 0 ∧ s.inq = input ∧ s.outq = [] ∧ s.err = none

/-- R202: execution starts at cell 0. There is one mode and no interrupt mask: the state has neither. -/
def Obligations.ExecutionStartsAtCellZero : Prop :=
  ∀ (v : Variant) (text : List Char) (input : List Int) (capacity : Nat) (s : State) (i : Instr) (rest : List Int),
    construct v text input capacity = .ok s →
    s.pc = 0 ∧ (0 < s.cfg.memSize → decode v s.window = .ok (i, rest) → step s = exec i s)

/-- A program text is read by its grammar, each integer by its decimal value, and is malformed otherwise or where an integer
does not fit (70_reset_and_hazards.md, program text and malformed text; the grammar and the range check are the spec's
decision D26). That a text is a list of characters, its digits the ASCII digits, its white space the grammar's four
characters, and that leading zeros and `-0` are legal, is DEDUCED (log 12). -/
def Obligations.ProgramTextIsReadByItsGrammar : Prop :=
  ∀ (v : Variant) (text : List Char) (image : List Int),
    parseProgram v text = some image ↔
      ∃ items : List TextItem, items ≠ [] ∧ (∀ x ∈ items, x.legal) ∧ textOf items = text ∧
        items.map TextItem.value = image ∧ ∀ n ∈ image, v.fits n

/-- Construction fails with MALFORMED_PROGRAM_TEXT exactly on a malformed text or an initial input that does not fit
(70_reset_and_hazards.md, malformed text; the spec's decisions D26 and D24; which texts are malformed rests on log 12). -/
def Obligations.MalformedConstructionFails : Prop :=
  ∀ (v : Variant) (text : List Char) (input : List Int) (capacity : Nat),
    (parseProgram v text = none ∨ ∃ x ∈ input, ¬ v.fits x) ↔
      construct v text input capacity = .error .malformedProgramText

/-- The reset state is the construction of the text `0` on the extended core (the text, the variant and the capacity are the
model's choice, log 3; the other values are 10_state.md's reset values). -/
def Obligations.ResetIsAConstruction : Prop :=
  construct .extended ['0'] [] 0 = .ok State.reset

/-- What the host's reading of a table row gives is what the step runs, on an extended machine at any `pc` (the numbering and
the loading are the model's choice, log 4 and log 5). -/
def Obligations.TableWordIsWhatTheStepRuns : Prop :=
  ∀ (s : State) (nbits w : Nat) (i : Instr), s.cfg.variant = .extended → decodeTableWord nbits w = some i →
    step (s.withFetchWord nbits w) = exec i (s.withFetchWord nbits w)

/-- The pseudo-instructions do what they are named for: MOV copies a value, JMP jumps, NOP only advances `pc` by 3
(`nextPc`, log 9) (30_encoding.md, pseudo-instructions). -/
def Obligations.PseudoInstructionsExpand : Prop :=
  (∀ (s : State) (a : Src) (t : Dst) (x : Int) (l : Nat), s.val 1 a = .ok x → s.loc 3 t = .ok l →
    s.cfg.variant.fits x → exec (pseudoMov a t) s = .next { s with mem := s.mem.write l x, pc := s.nextPc 4 }) ∧
  (∀ (s : State) (g : Src) (y : Int), s.val 2 g = .ok y → 0 ≤ y →
    exec (pseudoJmp g) s = .next { s with pc := y.toNat }) ∧
  (∀ (s : State), exec pseudoNop s = .next { s with pc := s.nextPc 3 })
end

