-- ==== Sys2Proof/Laws/Memory.lean ====
section
/-! SUPPORT. Memory: a read after a write, and the canonical form, which every memory operation keeps (log 1). -/

namespace Sys2Proof.Machine

@[simp] theorem Memory.read_nil (a : Nat) : Memory.read [] a = 0 := rfl

theorem Memory.read_erase (m : Memory) (a b : Nat) :
    (m.erase a).read b = if b = a then 0 else m.read b := by
  induction m with
  | nil => simp [Memory.erase]
  | cons c m ih =>
    rw [Memory.erase, List.filter_cons]
    by_cases hc : c.1 = a
    · rw [← Memory.erase, if_neg (by simpa using hc), ih]
      by_cases hb : b = a
      · simp [hb]
      · simp [hb, Memory.read, show c.1 ≠ b by omega]
    · rw [← Memory.erase, if_pos (by simpa using hc), Memory.read, ih, Memory.read]
      by_cases hb : c.1 = b
      · simp [hb, show b ≠ a by omega]
      · simp [hb]

/-- Where no entry stands for the cell, an insertion adds one. -/
theorem Memory.read_insert (m : Memory) (a b : Nat) (v : Int) (h : ∀ c ∈ m, c.1 ≠ a) :
    (m.insert a v).read b = if b = a then v else m.read b := by
  induction m with
  | nil =>
    by_cases hb : b = a
    · simp [Memory.insert, Memory.read, hb]
    · simp [Memory.insert, Memory.read, hb, Ne.symm hb]
  | cons c m ih =>
    have hc := h c (List.mem_cons_self ..)
    rw [Memory.insert]
    split
    · by_cases hb : b = a
      · simp [Memory.read, hb]
      · simp [Memory.read, hb, Ne.symm hb]
    · rw [Memory.read, ih (fun d hd => h d (List.mem_cons_of_mem c hd)), Memory.read]
      by_cases hb : c.1 = b
      · simp [hb, show b ≠ a by omega]
      · simp [hb]

theorem Memory.mem_erase (m : Memory) (a : Nat) (c : Nat × Int) :
    c ∈ m.erase a ↔ c ∈ m ∧ c.1 ≠ a := by simp [Memory.erase]

/-- A read after a write, at every cell (20_memory.md R43, R50). -/
theorem Memory.read_write (m : Memory) (a b : Nat) (v : Int) :
    (m.write a v).read b = if b = a then v else m.read b := by
  unfold Memory.write
  split
  · subst v; exact m.read_erase a b
  · rw [Memory.read_insert _ _ _ _ (fun c hc => ((m.mem_erase a c).1 hc).2), Memory.read_erase]
    split <;> rfl

@[simp] theorem Memory.read_write_same (m : Memory) (a : Nat) (v : Int) : (m.write a v).read a = v := by
  simp [Memory.read_write]

theorem Memory.read_write_other (m : Memory) (a b : Nat) (v : Int) (h : b ≠ a) :
    (m.write a v).read b = m.read b := by
  simp [Memory.read_write, h]

/-! The canonical form. -/

theorem Memory.wfFrom_mono {low low' : Nat} (h : low' ≤ low) :
    ∀ m : Memory, Memory.wfFrom low m = true → Memory.wfFrom low' m = true
  | [], _ => rfl
  | c :: m, hm => by
    simp only [Memory.wfFrom, Bool.and_eq_true, decide_eq_true_eq] at hm ⊢
    exact ⟨⟨by omega, hm.1.2⟩, hm.2⟩

/-- Every entry of a canonical memory is at or above the lower bound and not 0. -/
theorem Memory.wfFrom_mem {low : Nat} {m : Memory} (h : Memory.wfFrom low m = true) :
    ∀ c ∈ m, low ≤ c.1 ∧ c.2 ≠ 0 := by
  induction m generalizing low with
  | nil => simp
  | cons d m ih =>
    simp only [Memory.wfFrom, Bool.and_eq_true, decide_eq_true_eq] at h
    intro c hc
    rcases List.mem_cons.1 hc with rfl | hc
    · exact h.1
    · have := ih h.2 c hc
      exact ⟨by omega, this.2⟩

theorem Memory.wfFrom_erase {low : Nat} {m : Memory} (a : Nat) (h : Memory.wfFrom low m = true) :
    Memory.wfFrom low (m.erase a) = true := by
  induction m generalizing low with
  | nil => rfl
  | cons c m ih =>
    simp only [Memory.wfFrom, Bool.and_eq_true, decide_eq_true_eq] at h
    rw [Memory.erase, List.filter_cons, ← Memory.erase]
    split
    · simp only [Memory.wfFrom, Bool.and_eq_true, decide_eq_true_eq]
      exact ⟨h.1, ih h.2⟩
    · exact Memory.wfFrom_mono (by omega) _ (ih h.2)

theorem Memory.wfFrom_insert {low : Nat} {m : Memory} (a : Nat) (v : Int) (hv : v ≠ 0) (hl : low ≤ a)
    (hn : ∀ c ∈ m, c.1 ≠ a) (h : Memory.wfFrom low m = true) : Memory.wfFrom low (m.insert a v) = true := by
  induction m generalizing low with
  | nil => simp [Memory.insert, Memory.wfFrom, hv, hl]
  | cons c m ih =>
    simp only [Memory.wfFrom, Bool.and_eq_true, decide_eq_true_eq] at h
    have hc := hn c (List.mem_cons_self ..)
    rw [Memory.insert]
    split
    · simp only [Memory.wfFrom, Bool.and_eq_true, decide_eq_true_eq]
      exact ⟨⟨hl, hv⟩, ⟨⟨by omega, h.1.2⟩, h.2⟩⟩
    · simp only [Memory.wfFrom, Bool.and_eq_true, decide_eq_true_eq]
      exact ⟨h.1, ih (by omega) (fun d hd => hn d (List.mem_cons_of_mem c hd)) h.2⟩

/-- A write keeps the canonical form. -/
theorem Memory.wf_write {m : Memory} (a : Nat) (v : Int) (h : m.wf = true) : (m.write a v).wf = true := by
  have he : Memory.wfFrom 0 (m.erase a) = true := Memory.wfFrom_erase a h
  unfold Memory.write
  split
  · exact he
  · exact Memory.wfFrom_insert a v ‹_› (Nat.zero_le a) (fun c hc => ((m.mem_erase a c).1 hc).2) he

/-- Placing a list of cells keeps the canonical form. -/
theorem Memory.wf_writeList {m : Memory} (a : Nat) (vs : List Int) (h : m.wf = true) :
    (m.writeList a vs).wf = true := by
  induction vs generalizing m a with
  | nil => exact h
  | cons v vs ih => exact ih (a + 1) (Memory.wf_write a v h)

/-- Memory at reset is canonical. -/
theorem Memory.wf_reset : State.reset.mem.wf = true := rfl

/-- The entries of an insertion are the new one and the old ones. -/
theorem Memory.mem_insert {m : Memory} {a : Nat} {v : Int} {c : Nat × Int} (h : c ∈ m.insert a v) :
    c = (a, v) ∨ c ∈ m := by
  induction m with
  | nil => simpa [Memory.insert] using h
  | cons d m ih =>
    rw [Memory.insert] at h
    split at h
    · rcases List.mem_cons.1 h with h | h
      · exact .inl h
      · exact .inr h
    · rcases List.mem_cons.1 h with h | h
      · exact .inr (h ▸ List.mem_cons_self ..)
      · exact (ih h).imp id (List.mem_cons_of_mem d)

/-- The entries of a write are the new one and old ones. -/
theorem Memory.mem_write {m : Memory} {a : Nat} {v : Int} {c : Nat × Int} (h : c ∈ m.write a v) :
    c = (a, v) ∨ c ∈ m := by
  unfold Memory.write at h
  split at h
  · exact .inr ((m.mem_erase a c).1 h).1
  · exact (Memory.mem_insert h).imp id (fun h => ((m.mem_erase a c).1 h).1)

/-- The entries of cells placed one after another are old ones and new ones, each in its place. -/
theorem Memory.mem_writeList {vs : List Int} {m : Memory} {a : Nat} {c : Nat × Int} (h : c ∈ m.writeList a vs) :
    c ∈ m ∨ (a ≤ c.1 ∧ c.1 < a + vs.length ∧ c.2 ∈ vs) := by
  induction vs generalizing m a with
  | nil => exact .inl h
  | cons v vs ih =>
    rcases ih h with h | ⟨h1, h2, h3⟩
    · rcases Memory.mem_write h with rfl | h
      · exact .inr ⟨by simp, by simp, by simp⟩
      · exact .inl h
    · exact .inr ⟨by omega, by simp; omega, List.mem_cons_of_mem _ h3⟩

/-- What a cell reads as is 0 or a listed value. -/
theorem Memory.read_mem (m : Memory) (a : Nat) : m.read a = 0 ∨ (a, m.read a) ∈ m := by
  induction m with
  | nil => exact .inl rfl
  | cons c m ih =>
    rw [Memory.read]
    split
    · rename_i h
      exact .inr (by rw [← h]; exact List.mem_cons_self ..)
    · exact ih.imp id (List.mem_cons_of_mem c)

/-- Cells placed one after another read back, and the others stay. -/
theorem Memory.read_writeList (m : Memory) (a b : Nat) (vs : List Int) :
    (m.writeList a vs).read b =
      if a ≤ b ∧ b < a + vs.length then vs.getD (b - a) 0 else m.read b := by
  induction vs generalizing m a with
  | nil => simp [Memory.writeList]
  | cons v vs ih =>
    rw [Memory.writeList, ih, Memory.read_write]
    rcases Nat.lt_trichotomy b a with h | h | h
    · rw [if_neg (by omega), if_neg (by omega), if_neg (by omega)]
    · subst h; simp
    · obtain ⟨d, rfl⟩ : ∃ d, b = a + 1 + d := ⟨b - a - 1, by omega⟩
      have h1 : a + 1 + d - (a + 1) = d := by omega
      have h2 : a + 1 + d - a = d + 1 := by omega
      by_cases hd : d < vs.length
      · rw [if_pos (by omega), if_pos (by simp; omega), h1, h2, List.getD_cons_succ]
      · rw [if_neg (by omega), if_neg (by omega), if_neg (by simp; omega)]

/-- Canonical memories that read the same are the same list. -/
theorem Memory.ext_of_wfFrom {low : Nat} {m m' : Memory} (h : Memory.wfFrom low m = true)
    (h' : Memory.wfFrom low m' = true) (hr : ∀ a, m.read a = m'.read a) : m = m' := by
  induction m generalizing low m' with
  | nil =>
    cases m' with
    | nil => rfl
    | cons d m' =>
      have := hr d.1
      simp only [Memory.wfFrom, Bool.and_eq_true, decide_eq_true_eq] at h'
      simp [Memory.read] at this
      exact absurd this.symm h'.1.2
  | cons c m ih =>
    cases m' with
    | nil =>
      have := hr c.1
      simp only [Memory.wfFrom, Bool.and_eq_true, decide_eq_true_eq] at h
      simp [Memory.read] at this
      exact absurd this h.1.2
    | cons d m' =>
      simp only [Memory.wfFrom, Bool.and_eq_true, decide_eq_true_eq] at h h'
      have low_read {low : Nat} {n : Memory} {a : Nat} (hn : Memory.wfFrom low n = true) (ha : a < low) :
          n.read a = 0 := by
        rcases n.read_mem a with hz | hm
        · exact hz
        · have := (Memory.wfFrom_mem hn _ hm).1
          simp at this; omega
      have key : c.1 = d.1 := by
        rcases Nat.lt_trichotomy c.1 d.1 with hlt | heq | hgt
        · have hc := hr c.1
          rw [Memory.read, if_pos rfl, Memory.read, if_neg (by omega), low_read h'.2 (by omega)] at hc
          exact absurd hc h.1.2
        · exact heq
        · have hd := hr d.1
          rw [Memory.read, if_neg (by omega), Memory.read, if_pos rfl, low_read h.2 (by omega)] at hd
          exact absurd hd.symm h'.1.2
      have hv : c.2 = d.2 := by
        have := hr c.1
        rwa [Memory.read, if_pos rfl, Memory.read, if_pos key.symm] at this
      have htail : m = m' := by
        refine ih h.2 (key ▸ h'.2) (fun a => ?_)
        by_cases ha : a = c.1
        · rw [ha, low_read h.2 (Nat.lt_succ_self _), low_read (key ▸ h'.2 : Memory.wfFrom (c.1 + 1) m' = true)
            (Nat.lt_succ_self _)]
        · have := hr a
          rwa [Memory.read, if_neg (Ne.symm ha), Memory.read, if_neg (key ▸ Ne.symm ha)] at this
      rw [htail, show c = d from Prod.ext key hv]

end Sys2Proof.Machine
end

