-- ==== Sys2Proof/Laws/Construction.lean ====
section
/-! SUPPORT. Construction: all it can answer, and the fields of the state it builds (70_reset_and_hazards.md R200, R201). -/

namespace Sys2Proof.Machine

@[simp] theorem ofImage_memSize_narrow (image input : List Int) (capacity : Nat) :
    (State.ofImage .narrow image input capacity).cfg.memSize = image.length := by
  simp [State.ofImage]

@[simp] theorem ofImage_memSize_extended (image input : List Int) (capacity : Nat) :
    (State.ofImage .extended image input capacity).cfg.memSize = max image.length capacity := rfl

section
variable (v : Variant) (image input : List Int) (capacity : Nat)

@[simp] theorem ofImage_variant : (State.ofImage v image input capacity).cfg.variant = v := rfl
@[simp] theorem ofImage_mem : (State.ofImage v image input capacity).mem = Memory.writeList [] 0 image := rfl
@[simp] theorem ofImage_pc : (State.ofImage v image input capacity).pc = 0 := rfl
@[simp] theorem ofImage_rb : (State.ofImage v image input capacity).rb = 0 := rfl
@[simp] theorem ofImage_inq : (State.ofImage v image input capacity).inq = input := rfl
@[simp] theorem ofImage_outq : (State.ofImage v image input capacity).outq = [] := rfl
@[simp] theorem ofImage_err : (State.ofImage v image input capacity).err = none := rfl

end

/-- The cells of a program text that parses fit (R208). -/
theorem parseCells_fits {v : Variant} {ps : List (List Char)} {ns : List Int} (h : parseCells v ps = some ns) :
    ∀ n ∈ ns, v.fits n := by
  induction ps generalizing ns with
  | nil => cases h; simp
  | cons p ps ih =>
    unfold parseCells at h
    split at h
    · rename_i n ns' hc hcs
      cases h
      refine List.forall_mem_cons.2 ⟨?_, ih hcs⟩
      unfold parseCell at hc
      split at hc
      · split at hc
        · cases hc; assumption
        · cases hc
      · cases hc
    · cases h

/-- All that `construct` can answer: the reset state of the parsed image, or the malformed code, each with what made it
so. -/
theorem construct_cases (v : Variant) (text : List Char) (input : List Int) (capacity : Nat) :
    (parseProgram v text = none ∧ construct v text input capacity = .error .malformedProgramText) ∨
    (¬ (∀ x ∈ input, v.fits x) ∧ construct v text input capacity = .error .malformedProgramText) ∨
    ∃ image, parseProgram v text = some image ∧ (∀ x ∈ input, v.fits x) ∧
      construct v text input capacity = .ok (State.ofImage v image input capacity) := by
  unfold construct
  cases hp : parseProgram v text with
  | none => exact .inl ⟨rfl, rfl⟩
  | some image =>
    dsimp only
    split
    · exact .inr (.inr ⟨image, rfl, ‹_›, rfl⟩)
    · exact .inr (.inl ⟨‹_›, rfl⟩)

/-- What a construction that answers an instance says. -/
theorem construct_ok {v : Variant} {text : List Char} {input : List Int} {capacity : Nat} {s : State}
    (h : construct v text input capacity = .ok s) :
    ∃ image, parseProgram v text = some image ∧ (∀ x ∈ input, v.fits x) ∧ s = State.ofImage v image input capacity := by
  rcases construct_cases v text input capacity with ⟨-, he⟩ | ⟨-, he⟩ | ⟨image, hp, hi, he⟩
  · rw [he] at h; cases h
  · rw [he] at h; cases h
  · rw [he] at h; cases h; exact ⟨image, hp, hi, rfl⟩

end Sys2Proof.Machine
end

