-- ==== Sys2Proof/Laws/Decode.lean ====
section
/-! SUPPORT. The decoder's parts: what each check can answer (40_pipeline.md R83), and the encoder's words. -/

namespace Sys2Proof

/-- A mode digit is a mode of the variant, or UNKNOWN_MODE (30_encoding.md R68). -/
theorem decodeMode_cases (v : Variant) (n k : Nat) :
    (digit n (k + 1) ∈ v.modes ∧ decodeMode v n k = .ok (Mode.ofDigit (digit n (k + 1)))) ∨
    (digit n (k + 1) ∉ v.modes ∧ decodeMode v n k = .error ⟨.unknownMode, k, digit n (k + 1)⟩) := by
  unfold decodeMode
  split
  · exact .inl ⟨‹_›, rfl⟩
  · exact .inr ⟨‹_›, rfl⟩

/-- Digits beyond the operands are 0, or UNKNOWN_MODE (R64). -/
theorem decodeNoExcess_cases (n k : Nat) :
    (n / 100 < 10 ^ k ∧ decodeNoExcess n k = .ok ()) ∨
    (10 ^ k ≤ n / 100 ∧ decodeNoExcess n k = .error ⟨.unknownMode, 0, n⟩) := by
  unfold decodeNoExcess
  split
  · exact .inl ⟨‹_›, rfl⟩
  · exact .inr ⟨by omega, rfl⟩

/-- The modes of both variants are the digits 0, 1 and, in the extended one, 2 (00_scope.md R6). -/
theorem mem_modes (v : Variant) (d : Nat) : d ∈ v.modes ↔ d = 0 ∨ d = 1 ∨ (v = .extended ∧ d = 2) := by
  cases v <;> simp [Variant.modes]

@[simp] theorem Mode.ofDigit_toDigit (m : Mode) : Mode.ofDigit m.toDigit = m := by cases m <;> rfl

theorem Mode.toDigit_ofDigit {v : Variant} {d : Nat} (h : d ∈ v.modes) : (Mode.ofDigit d).toDigit = d := by
  rcases (mem_modes v d).1 h with rfl | rfl | ⟨-, rfl⟩ <;> rfl

/-- A mode digit is at most 2 (30_encoding.md R63). -/
theorem Mode.toDigit_le (m : Mode) : m.toDigit ≤ 2 := by cases m <;> decide

theorem TargetMode.toDigit_le (m : TargetMode) : m.toDigit ≤ 2 := by cases m <;> decide

@[simp] theorem Src.ofMode_word (a : Src) : Src.ofMode a.mode a.word = a := by cases a <;> rfl
@[simp] theorem Dst.ofMode_word (t : Dst) : Dst.ofMode t.mode t.word = t := by cases t <;> rfl

@[simp] theorem Src.mode_ofMode (m : Mode) (n : Int) : (Src.ofMode m n).mode = m := by cases m <;> rfl
@[simp] theorem Dst.mode_ofMode (m : TargetMode) (n : Int) : (Dst.ofMode m n).mode = m := by cases m <;> rfl
@[simp] theorem Src.word_ofMode (m : Mode) (n : Int) : (Src.ofMode m n).word = n := by cases m <;> rfl
@[simp] theorem Dst.word_ofMode (m : TargetMode) (n : Int) : (Dst.ofMode m n).word = n := by cases m <;> rfl

/-- Operand words taken off the front of the cells are the instruction's own. -/
theorem takeOperands_operandWords (i : Instr) (rest : List Int) :
    i.form.takeOperands (i.operandWords ++ rest) = some (i, rest) := by
  cases i <;> simp [Instr.form, Instr.operandWords, Form.takeOperands]

/-- An instruction has as many operand words as its format has operands (30_encoding.md R65). -/
@[simp] theorem length_operandWords (i : Instr) : i.operandWords.length = i.form.operands := by
  cases i <;> rfl

/-- The cells of an instruction are as many as its length (R60). -/
@[simp] theorem length_encode (i : Instr) : (encode i).length = i.length := by
  simp [encode, Instr.length, Form.length, Nat.add_comm]

/-- No instruction is longer than four cells (R65). -/
theorem length_le_longest (i : Instr) : i.length ≤ longestInstr := by
  cases i <;> simp [Instr.length, Instr.form, Form.length, Form.operands, longestInstr]

end Sys2Proof
end

