-- ==== Sys2Proof/Laws/State.lean ====
section
/-! SUPPORT. What each update of the state leaves in each field: true by unfolding, so that no later proof unfolds a
record update. -/

namespace Sys2Proof.Machine

/-! `raise` (40_pipeline.md R89). -/

@[simp] theorem raise_cfg (s : State) (t : Trap) : (s.raise t).cfg = s.cfg := rfl
@[simp] theorem raise_mem (s : State) (t : Trap) : (s.raise t).mem = s.mem := rfl
@[simp] theorem raise_pc (s : State) (t : Trap) : (s.raise t).pc = s.pc := rfl
@[simp] theorem raise_rb (s : State) (t : Trap) : (s.raise t).rb = s.rb := rfl
@[simp] theorem raise_inq (s : State) (t : Trap) : (s.raise t).inq = s.inq := rfl
@[simp] theorem raise_outq (s : State) (t : Trap) : (s.raise t).outq = s.outq := rfl
@[simp] theorem raise_err (s : State) (t : Trap) : (s.raise t).err = some (s.errInfo t) := rfl

/-! `commit` (40_pipeline.md R88). -/

@[simp] theorem commit_cfg (s : State) (e : Effect) : (s.commit e).cfg = s.cfg := rfl
@[simp] theorem commit_pc (s : State) (e : Effect) : (s.commit e).pc = e.pcNext := rfl
@[simp] theorem commit_rb (s : State) (e : Effect) : (s.commit e).rb = e.rbNext := rfl
@[simp] theorem commit_err (s : State) (e : Effect) : (s.commit e).err = s.err := rfl

theorem commit_mem_write (s : State) (e : Effect) (a : Nat) (v : Int) (h : e.wr = some (a, v)) :
    (s.commit e).mem = s.mem.write a v := by simp [State.commit, h]

theorem commit_mem_keep (s : State) (e : Effect) (h : e.wr = none) : (s.commit e).mem = s.mem := by
  simp [State.commit, h]

theorem commit_inq_pop (s : State) (e : Effect) (h : e.popIn = true) : (s.commit e).inq = s.inq.tail := by
  simp [State.commit, h]

theorem commit_inq_keep (s : State) (e : Effect) (h : e.popIn = false) : (s.commit e).inq = s.inq := by
  simp [State.commit, h]

theorem commit_outq_append (s : State) (e : Effect) (v : Int) (h : e.out = some v) :
    (s.commit e).outq = s.outq ++ [v] := by simp [State.commit, h]

theorem commit_outq_keep (s : State) (e : Effect) (h : e.out = none) : (s.commit e).outq = s.outq := by
  simp [State.commit, h]

/-! The sequential advance (10_state.md R21 to R23, log 9). -/

/-- All that is known of the next `pc`: the sum where it is at most CELL_MAX, else some value from `pc` to CELL_MAX. -/
theorem nextPc_cases (s : State) (n : Nat) :
    (((s.pc + n : Nat) : Int) ≤ s.cfg.variant.cellMax ∧ s.nextPc n = s.pc + n) ∨
    (s.cfg.variant.cellMax < ((s.pc + n : Nat) : Int) ∧ (s.nextPc n : Int) ≤ s.cfg.variant.cellMax ∧
      ((s.pc : Int) ≤ s.cfg.variant.cellMax → s.pc ≤ s.nextPc n)) := by
  have h0 : 0 ≤ s.cfg.variant.cellMax := by cases s.cfg.variant <;> decide
  unfold State.nextPc
  split
  · exact .inl ⟨‹_›, rfl⟩
  · exact .inr ⟨by omega, by omega, by omega⟩

/-- Inside memory no larger than CELL_MAX the advance is exact. -/
theorem nextPc_eq {s : State} {n : Nat} (h : ((s.pc + n : Nat) : Int) ≤ s.cfg.variant.cellMax) :
    s.nextPc n = s.pc + n := if_pos h

/-- `pc` stays at most CELL_MAX (R21). -/
theorem nextPc_le (s : State) (n : Nat) : (s.nextPc n : Int) ≤ s.cfg.variant.cellMax := by
  rcases nextPc_cases s n with ⟨h, he⟩ | ⟨-, h, -⟩
  · rw [he]; exact h
  · exact h

/-! The effect that only moves `pc`. -/

@[simp] theorem advance_wr (s : State) (n : Nat) : (s.advance n).wr = none := rfl
@[simp] theorem advance_pcNext (s : State) (n : Nat) : (s.advance n).pcNext = s.nextPc n := rfl
@[simp] theorem advance_rbNext (s : State) (n : Nat) : (s.advance n).rbNext = s.rb := rfl
@[simp] theorem advance_popIn (s : State) (n : Nat) : (s.advance n).popIn = false := rfl
@[simp] theorem advance_out (s : State) (n : Nat) : (s.advance n).out = none := rfl

/-! The end of a step. -/

@[simp] theorem conclude_commit (s : State) (e : Effect) : s.conclude (.commit e) = s.commit e := rfl
@[simp] theorem conclude_wait (s : State) : s.conclude .wait = s := rfl
@[simp] theorem conclude_halt (s : State) : s.conclude .halt = s := rfl
@[simp] theorem conclude_trap (s : State) (t : Trap) : s.conclude (.trap t) = s.raise t := rfl
@[simp] theorem statusOf_commit (s : State) (e : Effect) : s.statusOf (.commit e) = .ok := rfl
@[simp] theorem statusOf_wait (s : State) : s.statusOf .wait = .wait := rfl
@[simp] theorem statusOf_halt (s : State) : s.statusOf .halt = .halt := rfl
@[simp] theorem statusOf_trap (s : State) (t : Trap) : s.statusOf (.trap t) = .error (s.errInfo t) := rfl

/-- No step changes the configuration (10_state.md R30). -/
@[simp] theorem conclude_cfg (s : State) (e : Ending) : (s.conclude e).cfg = s.cfg := by
  cases e <;> rfl

/-! The host's updates. -/

/-- All a push can do (60_exceptions.md R188). -/
theorem push_cases (s : State) (v : Int) :
    (s.cfg.variant.fits v ∧ s.push v = some { s with inq := s.inq ++ [v] }) ∨
    (¬ s.cfg.variant.fits v ∧ s.push v = none) := by
  unfold State.push
  split
  · exact .inl ⟨‹_›, rfl⟩
  · exact .inr ⟨‹_›, rfl⟩

/-- All a pop from the front can do (R189). -/
theorem popFront_cases (s : State) :
    (s.outq = [] ∧ s.popFront = (none, s)) ∨
    (∃ v q, s.outq = v :: q ∧ s.popFront = (some v, { s with outq := q })) := by
  unfold State.popFront
  split
  · exact .inl ⟨‹_›, rfl⟩
  · exact .inr ⟨_, _, ‹_›, rfl⟩

/-- All a pop from the back can do (R189). -/
theorem popBack_cases (s : State) :
    (s.outq = [] ∧ s.popBack = (none, s)) ∨
    (∃ q v, s.outq = q ++ [v] ∧ s.popBack = (some v, { s with outq := q })) := by
  obtain h | ⟨q, v, h⟩ := List.eq_nil_or_concat s.outq
  · exact .inl ⟨h, by simp [State.popBack, h]⟩
  · exact .inr ⟨q, v, by simpa using h, by simp [State.popBack, h]⟩

end Sys2Proof.Machine
end

