-- ==== Sys2Proof/Laws/Operands.lean ====
section
/-! SUPPORT. The resolver and the range checks: what each can answer (20_memory.md R45 to R49, 41_alu.md R104). -/

namespace Sys2Proof.Machine

/-- The range check answers the address, or INVALID_ADDRESS (R49). -/
theorem checkAddr_cases (s : State) (k : Nat) (a : Int) :
    (0 ≤ a ∧ a < s.cfg.memSize ∧ s.checkAddr k a = .ok a.toNat) ∨
    (¬ (0 ≤ a ∧ a < s.cfg.memSize) ∧ s.checkAddr k a = .error ⟨.invalidAddress, k, a⟩) := by
  unfold State.checkAddr
  split
  · exact .inl ⟨(‹_ ∧ _› : _).1, (‹_ ∧ _› : _).2, rfl⟩
  · exact .inr ⟨‹_›, rfl⟩

theorem checkAddr_ok {s : State} {k : Nat} {a : Int} {l : Nat} (h : s.checkAddr k a = .ok l) :
    a = l ∧ l < s.cfg.memSize := by
  rcases checkAddr_cases s k a with ⟨h0, h1, he⟩ | ⟨-, he⟩
  · rw [he] at h; cases h; omega
  · rw [he] at h; cases h

/-- The fit check answers the value, or ARITHMETIC_OVERFLOW (41_alu.md R104). -/
theorem checkFits_cases (s : State) (k : Nat) (r : Int) :
    (s.cfg.variant.fits r ∧ s.checkFits k r = .ok r) ∨
    (¬ s.cfg.variant.fits r ∧ s.checkFits k r = .error ⟨.arithmeticOverflow, k, r⟩) := by
  unfold State.checkFits
  split
  · exact .inl ⟨‹_›, rfl⟩
  · exact .inr ⟨‹_›, rfl⟩

theorem checkFits_ok {s : State} {k : Nat} {r x : Int} (h : s.checkFits k r = .ok x) :
    x = r ∧ s.cfg.variant.fits x := by
  rcases checkFits_cases s k r with ⟨hf, he⟩ | ⟨-, he⟩
  · rw [he] at h; cases h; exact ⟨rfl, hf⟩
  · rw [he] at h; cases h

@[simp] theorem val_pos (s : State) (k : Nat) (n : Int) :
    s.val k (.pos n) = s.readAt (s.checkAddr k n) := rfl

@[simp] theorem val_imm (s : State) (k : Nat) (n : Int) : s.val k (.imm n) = .ok n := rfl

theorem val_rel_extended {s : State} (k : Nat) (n : Int) (h : s.cfg.variant = .extended) :
    s.val k (.rel n) = s.readAt (s.checkAddr k (s.rb + n)) := by
  simp [State.val, State.addrRelative, State.relativeBase, h]

theorem val_rel_narrow {s : State} (k : Nat) (n : Int) (h : s.cfg.variant = .narrow) :
    s.val k (.rel n) = .error ⟨.unknownMode, k, 2⟩ := by
  simp [State.val, State.addrRelative, State.relativeBase, State.readAt, h]

@[simp] theorem loc_pos (s : State) (k : Nat) (n : Int) : s.loc k (.pos n) = s.checkAddr k n := rfl

theorem loc_rel_extended {s : State} (k : Nat) (n : Int) (h : s.cfg.variant = .extended) :
    s.loc k (.rel n) = s.checkAddr k (s.rb + n) := by
  simp [State.loc, State.addrRelative, State.relativeBase, h]

theorem loc_rel_narrow {s : State} (k : Nat) (n : Int) (h : s.cfg.variant = .narrow) :
    s.loc k (.rel n) = .error ⟨.unknownMode, k, 2⟩ := by
  simp [State.loc, State.addrRelative, State.relativeBase, h]

/-- A resolved write target is a cell of memory (R49). -/
theorem loc_lt {s : State} {k : Nat} {t : Dst} {l : Nat} (h : s.loc k t = .ok l) : l < s.cfg.memSize := by
  cases t with
  | pos n => exact (checkAddr_ok h).2
  | rel n =>
    cases hv : s.cfg.variant with
    | narrow => rw [loc_rel_narrow k n hv] at h; cases h
    | extended => rw [loc_rel_extended k n hv] at h; exact (checkAddr_ok h).2

/-- A resolved read operand is its own word, or a cell of memory (R45). -/
theorem val_cases {s : State} {k : Nat} {a : Src} {x : Int} (h : s.val k a = .ok x) :
    (a = .imm x) ∨ ∃ l, l < s.cfg.memSize ∧ x = s.readCell l := by
  have read_ok {e : Except Trap Nat} (h : s.readAt e = .ok x) : ∃ l, e = .ok l ∧ x = s.readCell l := by
    cases e with
    | error t => cases h
    | ok l => cases h; exact ⟨l, rfl, rfl⟩
  cases a with
  | imm n => cases h; exact .inl rfl
  | pos n =>
    obtain ⟨l, hl, hx⟩ := read_ok h
    exact .inr ⟨l, (checkAddr_ok hl).2, hx⟩
  | rel n =>
    cases hv : s.cfg.variant with
    | narrow => rw [val_rel_narrow k n hv] at h; cases h
    | extended =>
      rw [val_rel_extended k n hv] at h
      obtain ⟨l, hl, hx⟩ := read_ok h
      exact .inr ⟨l, (checkAddr_ok hl).2, hx⟩

end Sys2Proof.Machine
end

