-- ==== Sys2Proof/Laws/Endings.lean ====
section
/-! SUPPORT. All that the stages RESOLVE, INPUT GATE and EXECUTE of each format can end with: one inversion lemma per
shared operation, and the equation that joins `exec` to `ending`. -/

namespace Sys2Proof.Machine

/-- Every meaning is its ending, concluded: the state half of the spec's step. -/
theorem exec_eq_finish (i : Instr) (s : State) : exec i s = .next (s.conclude (ending i s)) := by
  cases i <;> rfl

/-- FRRW: an error of an operand in order, an error of the function, or one write of its result with `nextPc 4`. -/
theorem aluEnding_cases (f : Int → Int → Except Trap Int) (a b : Src) (t : Dst) (s : State) :
    (∃ e, s.val 1 a = .error e ∧ aluEnding f a b t s = .trap e) ∨
    (∃ x e, s.val 1 a = .ok x ∧ s.val 2 b = .error e ∧ aluEnding f a b t s = .trap e) ∨
    (∃ x y e, s.val 1 a = .ok x ∧ s.val 2 b = .ok y ∧ s.loc 3 t = .error e ∧ aluEnding f a b t s = .trap e) ∨
    (∃ x y l e, s.val 1 a = .ok x ∧ s.val 2 b = .ok y ∧ s.loc 3 t = .ok l ∧ f x y = .error e ∧
      aluEnding f a b t s = .trap e) ∨
    (∃ x y l r, s.val 1 a = .ok x ∧ s.val 2 b = .ok y ∧ s.loc 3 t = .ok l ∧ f x y = .ok r ∧
      aluEnding f a b t s = .commit { s.advance 4 with wr := some (l, r) }) := by
  unfold aluEnding
  cases ha : s.val 1 a with
  | error e => exact .inl ⟨e, rfl, rfl⟩
  | ok x =>
    cases hb : s.val 2 b with
    | error e => exact .inr (.inl ⟨x, e, rfl, rfl, rfl⟩)
    | ok y =>
      cases ht : s.loc 3 t with
      | error e => exact .inr (.inr (.inl ⟨x, y, e, rfl, rfl, rfl, rfl⟩))
      | ok l =>
        cases hf : f x y with
        | error e => exact .inr (.inr (.inr (.inl ⟨x, y, l, e, rfl, rfl, rfl, hf, by
            simp [hf, bind, Except.bind, Ending.ofStages]⟩)))
        | ok r => exact .inr (.inr (.inr (.inr ⟨x, y, l, r, rfl, rfl, rfl, hf, by
            simp [hf, bind, Except.bind, Ending.ofStages, pure, Except.pure]⟩)))

/-- IN: an error of the target, WAIT on an empty queue, or the front value written and popped. -/
theorem inpEnding_cases (t : Dst) (s : State) :
    (∃ e, s.loc 1 t = .error e ∧ inpEnding t s = .trap e) ∨
    (∃ l, s.loc 1 t = .ok l ∧ s.inq = [] ∧ inpEnding t s = .wait) ∨
    (∃ l v q, s.loc 1 t = .ok l ∧ s.inq = v :: q ∧
      inpEnding t s = .commit { s.advance 2 with wr := some (l, v), popIn := true }) := by
  unfold inpEnding
  cases ht : s.loc 1 t with
  | error e => exact .inl ⟨e, rfl, rfl⟩
  | ok l =>
    cases hq : s.inq with
    | nil => exact .inr (.inl ⟨l, rfl, rfl, rfl⟩)
    | cons v q => exact .inr (.inr ⟨l, v, q, rfl, rfl, rfl⟩)

/-- OUT: an error of the operand, or its value appended. -/
theorem outEnding_cases (a : Src) (s : State) :
    (∃ e, s.val 1 a = .error e ∧ outEnding a s = .trap e) ∨
    (∃ x, s.val 1 a = .ok x ∧ outEnding a s = .commit { s.advance 2 with out := some x }) := by
  unfold outEnding
  cases ha : s.val 1 a with
  | error e => exact .inl ⟨e, rfl, rfl⟩
  | ok x => exact .inr ⟨x, rfl, rfl⟩

/-- FRR: an error of an operand in order, a jump taken, a negative target, or `nextPc 3`. -/
theorem jumpEnding_cases (taken : Int → Bool) (c g : Src) (s : State) :
    (∃ e, s.val 1 c = .error e ∧ jumpEnding taken c g s = .trap e) ∨
    (∃ x e, s.val 1 c = .ok x ∧ s.val 2 g = .error e ∧ jumpEnding taken c g s = .trap e) ∨
    (∃ x y, s.val 1 c = .ok x ∧ s.val 2 g = .ok y ∧ taken x = true ∧ y < 0 ∧
      jumpEnding taken c g s = .trap ⟨.invalidJumpTarget, 2, y⟩) ∨
    (∃ x y, s.val 1 c = .ok x ∧ s.val 2 g = .ok y ∧ taken x = true ∧ 0 ≤ y ∧
      jumpEnding taken c g s = .commit { s.advance 0 with pcNext := y.toNat }) ∨
    (∃ x y, s.val 1 c = .ok x ∧ s.val 2 g = .ok y ∧ taken x = false ∧
      jumpEnding taken c g s = .commit (s.advance 3)) := by
  unfold jumpEnding
  cases hc : s.val 1 c with
  | error e => exact .inl ⟨e, rfl, rfl⟩
  | ok x =>
    cases hg : s.val 2 g with
    | error e => exact .inr (.inl ⟨x, e, rfl, rfl, rfl⟩)
    | ok y =>
      cases ht : taken x with
      | false => exact .inr (.inr (.inr (.inr ⟨x, y, rfl, rfl, ht, by
          simp [ht, bind, Except.bind, Ending.ofStages, pure, Except.pure]⟩)))
      | true =>
        by_cases hy : y < 0
        · exact .inr (.inr (.inl ⟨x, y, rfl, rfl, ht, hy, by
            simp [ht, hy, jumpTo, bind, Except.bind, Ending.ofStages]⟩))
        · exact .inr (.inr (.inr (.inl ⟨x, y, rfl, rfl, ht, Int.not_lt.1 hy, by
            simp [ht, hy, jumpTo, bind, Except.bind, Ending.ofStages, pure, Except.pure]⟩)))

/-- ARB: UNKNOWN_OPCODE on NARROW, an error of the operand, an overflow, or the new base with `nextPc 2`. -/
theorem arbEnding_cases (d : Src) (s : State) :
    (s.cfg.variant = .narrow ∧ arbEnding d s = .trap ⟨.unknownOpcode, 0, encodeWord (.arb d)⟩) ∨
    (∃ e, s.cfg.variant = .extended ∧ s.val 1 d = .error e ∧ arbEnding d s = .trap e) ∨
    (∃ x, s.cfg.variant = .extended ∧ s.val 1 d = .ok x ∧ ¬ s.cfg.variant.fits (s.rb + x) ∧
      arbEnding d s = .trap ⟨.arithmeticOverflow, 1, s.rb + x⟩) ∨
    (∃ x, s.cfg.variant = .extended ∧ s.val 1 d = .ok x ∧ s.cfg.variant.fits (s.rb + x) ∧
      arbEnding d s = .commit { s.advance 2 with rbNext := s.rb + x }) := by
  unfold arbEnding
  cases hv : s.cfg.variant with
  | narrow => exact .inl ⟨rfl, rfl⟩
  | extended =>
    cases hd : s.val 1 d with
    | error e => exact .inr (.inl ⟨e, rfl, rfl, rfl⟩)
    | ok x =>
      rcases checkFits_cases s 1 (s.rb + x) with ⟨hf, he⟩ | ⟨hf, he⟩
      · exact .inr (.inr (.inr ⟨x, rfl, rfl, hv ▸ hf, by
          simp [he, bind, Except.bind, Ending.ofStages, pure, Except.pure]⟩))
      · exact .inr (.inr (.inl ⟨x, rfl, rfl, hv ▸ hf, by
          simp [he, bind, Except.bind, Ending.ofStages]⟩))

end Sys2Proof.Machine
end

