-- ==== Sys2Proof/Laws/PerInstr.lean ====
section
/-! SUPPORT. Statements about every instruction, one lemma per constructor. -/

/-- The opcode of an instruction's row (30_encoding.md R67). -/
def Sys2Proof.Laws.OpcodeField.opcode : Sys2Proof.Instr → Int
  | .add _ _ _ => 1
  | .mul _ _ _ => 2
  | .inp _ => 3
  | .out _ => 4
  | .jt _ _ => 5
  | .jf _ _ => 6
  | .lt _ _ _ => 7
  | .eq _ _ _ => 8
  | .arb _ => 9
  | .halt => 99

/-- The opcode field of an instruction's word: `w mod 100` is the row's opcode, and the word has five digits at most
(30_encoding.md R61, R62). -/
def Sys2Proof.Laws.OpcodeField.Statement (i : Sys2Proof.Instr) : Prop :=
  0 ≤ Sys2Proof.encodeWord i ∧ Sys2Proof.encodeWord i < 100000 ∧
    Sys2Proof.encodeWord i % 100 = Sys2Proof.Laws.OpcodeField.opcode i

namespace Sys2Proof.Laws.OpcodeField

theorem add (a b : Src) (t : Dst) : Statement (.add a b t) := by
  have := a.mode.toDigit_le
  have := b.mode.toDigit_le
  have := t.mode.toDigit_le
  simp only [Statement, opcode, encodeWord, Instr.form, Form.word]; omega

theorem mul (a b : Src) (t : Dst) : Statement (.mul a b t) := by
  have := a.mode.toDigit_le
  have := b.mode.toDigit_le
  have := t.mode.toDigit_le
  simp only [Statement, opcode, encodeWord, Instr.form, Form.word]; omega

theorem inp (t : Dst) : Statement (.inp t) := by
  have := t.mode.toDigit_le
  simp only [Statement, opcode, encodeWord, Instr.form, Form.word]; omega

theorem out (a : Src) : Statement (.out a) := by
  have := a.mode.toDigit_le
  simp only [Statement, opcode, encodeWord, Instr.form, Form.word]; omega

theorem jt (c g : Src) : Statement (.jt c g) := by
  have := c.mode.toDigit_le
  have := g.mode.toDigit_le
  simp only [Statement, opcode, encodeWord, Instr.form, Form.word]; omega

theorem jf (c g : Src) : Statement (.jf c g) := by
  have := c.mode.toDigit_le
  have := g.mode.toDigit_le
  simp only [Statement, opcode, encodeWord, Instr.form, Form.word]; omega

theorem lt (a b : Src) (t : Dst) : Statement (.lt a b t) := by
  have := a.mode.toDigit_le
  have := b.mode.toDigit_le
  have := t.mode.toDigit_le
  simp only [Statement, opcode, encodeWord, Instr.form, Form.word]; omega

theorem eq (a b : Src) (t : Dst) : Statement (.eq a b t) := by
  have := a.mode.toDigit_le
  have := b.mode.toDigit_le
  have := t.mode.toDigit_le
  simp only [Statement, opcode, encodeWord, Instr.form, Form.word]; omega

theorem arb (d : Src) : Statement (.arb d) := by
  have := d.mode.toDigit_le
  simp only [Statement, opcode, encodeWord, Instr.form, Form.word]; omega

theorem halt : Statement .halt := ⟨by decide, by decide, rfl⟩

end Sys2Proof.Laws.OpcodeField
end

