-- ==== Sys2Proof/Laws/Step.lean ====
section
/-! SUPPORT. The stages before RESOLVE (40_pipeline.md R81 to R84): what FETCH can answer, and the window it decodes. -/

namespace Sys2Proof.Machine

/-- The window's length: the cells from `pc` on that exist, four at most. -/
theorem length_window (s : State) : s.window.length = min longestInstr (s.cfg.memSize - s.pc) := by
  simp [State.window]

/-- The window's cells are memory's, from `pc` on. -/
theorem window_get (s : State) (k : Nat) (h : k < s.window.length) : s.window[k] = s.readCell (s.pc + k) := by
  simp [State.window]

/-- A latched error is all a fetch sees (R81). -/
theorem fetch_latched {s : State} {e : ErrInfo} (h : s.err = some e) : s.fetch = .latched e := by
  simp [State.fetch, h]

/-- A `pc` past the end (R82). -/
theorem fetch_pastEnd {s : State} (h : s.err = none) (hp : s.cfg.memSize ≤ s.pc) : s.fetch = .pastEnd := by
  simp [State.fetch, h, hp]

/-- A `pc` inside memory: DECODE and OPERAND FETCH (R83, R84). -/
theorem fetch_inside {s : State} (h : s.err = none) (hp : s.pc < s.cfg.memSize) : s.fetch = s.decodeAtPc := by
  simp [State.fetch, h, Nat.not_le.2 hp]

/-- An instruction is fetched only by a machine without an error, from inside memory. -/
theorem fetch_instr {s : State} {i : Instr} (h : s.fetch = .instr i) :
    s.err = none ∧ s.pc < s.cfg.memSize ∧ s.decodeAtPc = .instr i := by
  unfold State.fetch at h
  split at h
  · cases h
  · split at h
    · cases h
    · exact ⟨‹_›, by omega, h⟩

end Sys2Proof.Machine
end

