-- ==== Sys2Proof/Tests/Slice0.lean ====
section
/-! SUPPORT. The model's own tests: ill-formed terms the check refuses, words written out from the spec that decode to
their instruction, one step per instruction from 95_test_vectors.md, and for each statement with hypotheses a concrete
state that meets them. -/

namespace Sys2Proof.Tests

open Sys2Proof.Machine Sys2Proof.Claims

/-- A small machine with the image, the input and the capacity of a vector. -/
def boot (v : Variant) (image : List Int) (input : List Int := []) (capacity : Nat := 0) : State :=
  State.ofImage v image input capacity

/-- The state a step or a meaning answers. -/
def after : Host.Outcome State Fault Refusal → Option State
  | .next s => some s
  | _ => none

/-! WellFormed: an ill-formed term for each check. -/

theorem test_wf_relative_read_on_narrow : (Instr.out (.rel 0)).wf .narrow = false := by decide
theorem test_wf_relative_write_on_narrow : (Instr.inp (.rel 0)).wf .narrow = false := by decide
theorem test_wf_arb_on_narrow : (Instr.arb (.imm 1)).wf .narrow = false := by decide
theorem test_wf_read_address_too_wide : (Instr.out (.pos 2147483648)).wf .narrow = false := by decide
theorem test_wf_immediate_too_wide : (Instr.out (.imm (-9223372036854775809))).wf .extended = false := by decide
theorem test_wf_relative_word_too_wide : (Instr.out (.rel 9223372036854775808)).wf .extended = false := by decide
theorem test_wf_target_too_wide : (Instr.inp (.pos 2147483648)).wf .narrow = false := by decide
theorem test_wf_relative_target_too_wide : (Instr.inp (.rel 9223372036854775808)).wf .extended = false := by decide
theorem test_wf_second_operand : (Instr.add (.imm 0) (.rel 0) (.pos 0)).wf .narrow = false := by decide
theorem test_wf_target_operand : (Instr.mul (.imm 0) (.imm 0) (.rel 0)).wf .narrow = false := by decide
theorem test_wf_jump_operand : (Instr.jf (.imm 0) (.rel 0)).wf .narrow = false := by decide
theorem test_wf_accepts : (Instr.add (.rel (-1)) (.imm 9223372036854775807) (.rel 0)).wf .extended = true := by decide

/-! Decode: a word of each row, written out digit by digit (30_encoding.md R62, R75). -/

theorem test_decode_add : decode .extended [21001, 5, 6, -7, 99] =
    .ok (.add (.pos 5) (.imm 6) (.rel (-7)), [99]) := by decide
theorem test_decode_mul : decode .narrow [102, -3, 4, 5] = .ok (.mul (.imm (-3)) (.pos 4) (.pos 5), []) := by decide
theorem test_decode_in : decode .extended [203, -1] = .ok (.inp (.rel (-1)), []) := by decide
theorem test_decode_out : decode .narrow [104, -7] = .ok (.out (.imm (-7)), []) := by decide
theorem test_decode_jt : decode .narrow [1005, 9, 0] = .ok (.jt (.pos 9) (.imm 0), []) := by decide
theorem test_decode_jf : decode .extended [2106, 0, 3] = .ok (.jf (.imm 0) (.rel 3), []) := by decide
theorem test_decode_lt : decode .narrow [7, 5, 6, 5] = .ok (.lt (.pos 5) (.pos 6) (.pos 5), []) := by decide
theorem test_decode_eq : decode .narrow [1008, 100, 16, 101] =
    .ok (.eq (.pos 100) (.imm 16) (.pos 101), []) := by decide
theorem test_decode_arb : decode .extended [209, 1] = .ok (.arb (.rel 1), []) := by decide
theorem test_decode_halt : decode .narrow [99] = .ok (.halt, []) := by decide

theorem test_decode_halt_excess : decodeWord .narrow 199 = .error ⟨.unknownMode, 0, 199⟩ := by decide
theorem test_decode_arb_narrow : decodeWord .narrow 109 = .error ⟨.unknownOpcode, 0, 109⟩ := by decide
theorem test_decode_modes_before_target : decodeWord .extended 31101 = .error ⟨.unknownMode, 3, 3⟩ := by decide
theorem test_decode_immediate_target : decodeWord .narrow 11101 = .error ⟨.immediateWrite, 3, 11101⟩ := by decide
theorem test_decode_sixth_digit : decodeWord .extended 100001 = .error ⟨.unknownMode, 0, 100001⟩ := by decide
theorem test_decode_missing : decode .narrow [1101, 1, 1] = .error .missing := by decide
theorem test_decode_empty : decode .narrow [] = .error .noWord := by decide
theorem test_encode_mul : encode (.mul (.imm 34915192) (.imm 34915192) (.pos 7)) = [1102, 34915192, 34915192, 7] := by
  decide

theorem test_table_add : decodeTableWord 8 1 = some (.add (.pos 0) (.pos 0) (.pos 0)) := by decide
theorem test_table_arb : decodeTableWord 8 209 = some (.arb (.rel 0)) := by decide
theorem test_table_operand_bits : decodeTableWord 128 (104 + 2 ^ 64 * (2 ^ 64 - 7)) = some (.out (.imm (-7))) := by
  decide

/-! One step each, from 95_test_vectors.md (the vector's name in the test's). -/

theorem test_step_add_V_ADD_2 : hostStep (boot .narrow [1, 5, 6, 7, 99, -4, 9, 0]) =
    ({ boot .narrow [1, 5, 6, 7, 99, -4, 9, 5] with pc := 4 }, .ok) := by decide
theorem test_step_add_V_ADD_3 : (hostStep (boot .narrow [1101, 2147483647, 1, 5, 99, 0])).2 =
    .error ⟨.arithmeticOverflow, 0, 0, 2147483648⟩ := by decide
theorem test_step_mul_V_MUL_1 : hostStep (boot .narrow [1102, -3, 4, 5, 99, 0]) =
    ({ boot .narrow [1102, -3, 4, 5, 99, -12] with pc := 4 }, .ok) := by decide
theorem test_step_mul_V_MUL_5 : (hostStep (boot .extended [1102, -9223372036854775808, -1, 5, 99, 0])).2 =
    .error ⟨.arithmeticOverflow, 0, 0, 9223372036854775808⟩ := by decide
theorem test_step_lt_V_LT_3 : hostStep (boot .narrow [1107, -1, 0, 5, 99, 9]) =
    ({ boot .narrow [1107, -1, 0, 5, 99, 1] with pc := 4 }, .ok) := by decide
theorem test_step_lt_V_LT_5 : hostStep (boot .narrow [7, 5, 6, 5, 99, 4, 4]) =
    ({ boot .narrow [7, 5, 6, 5, 99, 0, 4] with pc := 4 }, .ok) := by decide
theorem test_step_eq_V_EQ_2 : hostStep (boot .narrow [1108, -5, 5, 5, 99, 9]) =
    ({ boot .narrow [1108, -5, 5, 5, 99, 0] with pc := 4 }, .ok) := by decide
theorem test_step_eq_V_EQ_3 : hostStep (boot .narrow [8, 0, 0, 0, 99]) =
    ({ boot .narrow [1, 0, 0, 0, 99] with pc := 4 }, .ok) := by decide
theorem test_step_in_V_IN_5 : hostStep { boot .extended [203, -1, 99] [-8] with rb := 3 } =
    ({ boot .extended [203, -1, -8] with rb := 3, pc := 2 }, .ok) := by decide
theorem test_step_in_V_IN_4 : (hostStep (boot .narrow [3, 9, 99])).2 = .error ⟨.invalidAddress, 0, 1, 9⟩ := by decide
theorem test_step_out_V_OUT_1 : hostStep (boot .narrow [104, -7, 99]) =
    ({ boot .narrow [104, -7, 99] with pc := 2, outq := [-7] }, .ok) := by decide
theorem test_step_out_V_OUT_4 : hostStep { boot .extended [204, 1, 99, 55] with rb := 2 } =
    ({ boot .extended [204, 1, 99, 55] with rb := 2, pc := 2, outq := [55] }, .ok) := by decide
theorem test_step_jt_V_JT_3 : hostStep (boot .narrow [1105, -9, 2]) =
    ({ boot .narrow [1105, -9, 2] with pc := 2 }, .ok) := by decide
theorem test_step_jt_V_JT_4 : (hostStep (boot .narrow [1105, 1, -2])).2 = .error ⟨.invalidJumpTarget, 0, 2, -2⟩ := by
  decide
theorem test_step_jf_V_JF_1 : hostStep (boot .narrow [1106, 0, 5]) =
    ({ boot .narrow [1106, 0, 5] with pc := 5 }, .ok) := by decide
theorem test_step_jf_V_JF_2 : hostStep (boot .narrow [1106, 3, 5]) =
    ({ boot .narrow [1106, 3, 5] with pc := 3 }, .ok) := by decide
theorem test_step_arb_V_ARB_3 : hostStep { boot .extended [209, 1, 99, 40] with rb := 2 } =
    ({ boot .extended [209, 1, 99, 40] with rb := 42, pc := 2 }, .ok) := by decide
theorem test_step_arb_V_ARB_4 : (hostStep { boot .extended [109, 1, 99] with rb := 9223372036854775807 }).2 =
    .error ⟨.arithmeticOverflow, 0, 1, 9223372036854775808⟩ := by decide
theorem test_step_halt_V_HALT_1 : hostStep (boot .narrow [99]) = (boot .narrow [99], .halt) := by decide
theorem test_step_halt_V_HALT_4 : hostStep { boot .narrow [99] with pc := 1 } =
    ({ boot .narrow [99] with pc := 1 }, .halt) := by decide
theorem test_step_wait_V_IN_2 : hostStep (boot .narrow [3, 3, 99, 0]) = (boot .narrow [3, 3, 99, 0], .wait) := by decide
theorem test_step_missing_V_DEC_9 : (hostStep (boot .narrow [1, 0, 0])).2 = .error ⟨.missingOperand, 0, 3, 3⟩ := by
  decide
theorem test_step_latch_V_LATCH_1 : hostStep (hostStep (boot .narrow [1101, 1, 1, -1, 99])).1 =
    hostStep (boot .narrow [1101, 1, 1, -1, 99]) := by decide

theorem test_error_numbers : [ErrorCode.malformedProgramText, .unknownOpcode, .unknownMode, .missingOperand,
    .invalidAddress, .immediateWrite, .arithmeticOverflow, .invalidJumpTarget].map ErrorCode.number =
    [1, 2, 3, 4, 5, 6, 7, 8] := by decide
theorem test_status_codes : [Status.ok, .wait, .halt, .error ⟨.unknownMode, 0, 0, 199⟩].map Status.code =
    [0, 1, 2, 3] := by decide

/-! Construction (70_reset_and_hazards.md, and vectors V-DEC-14 to V-DEC-16). -/

theorem test_text_white_space : parseProgram .narrow [' ', '-', '1', '\n', ',', '0', '9'] = some [-1, 9] := by decide
theorem test_text_empty_V_DEC_14 : construct .narrow [] [] 0 = .error .malformedProgramText := by decide
theorem test_text_comma_V_DEC_15 : construct .narrow ['9', '9', ','] [] 0 = .error .malformedProgramText := by decide
theorem test_text_too_wide_V_DEC_16 :
    construct .narrow ['2', '1', '4', '7', '4', '8', '3', '6', '4', '8'] [] 0 = .error .malformedProgramText := by decide
theorem test_text_plus : construct .narrow ['+', '1'] [] 0 = .error .malformedProgramText := by decide
theorem test_input_too_wide : construct .narrow ['9', '9'] [2147483648] 0 = .error .malformedProgramText := by decide
theorem test_any_capacity : (construct .extended ['0'] [] (2 ^ 64)).isOk = true := by decide
theorem test_asm_line : assemble .extended ['l', ':', ' ', 'J', 'T', ' ', '[', 'r', 'b', '-', '1', ']', ',', ' ', '#', 'l'] =
    some [1205, -1, 0] := by decide

/-! Witnesses: for each statement with hypotheses, a state and operands that meet them; for a statement of several
clauses, one for each. -/

theorem witness_DecodeOfEncode : (Instr.add (.rel (-1)) (.imm 5) (.pos 3)).wf .extended = true := by decide
theorem witness_DecodedWord : decodeWord .extended 22201 = .ok (.add .relative .relative .relative) := by decide

/-- The used digits, checked one by one. -/
theorem digitsLegal_of {v : Variant} {n j : Nat} (h : ∀ k, k < j + 1 → 1 ≤ k → digit n (k + 1) ∈ v.modes) :
    digitsLegal v n j := fun k h1 h2 => h k (Nat.lt_succ_of_le h2) h1

theorem witness_UnknownOpcode_zero : ready (boot .narrow [0]) ∧ wordIs (boot .narrow [0]) 0 ∧
    0 % 100 ∉ Variant.narrow.opcodes := ⟨⟨rfl, by decide⟩, rfl, by decide⟩
theorem witness_UnknownOpcode_98 : ready (boot .extended [98]) ∧ wordIs (boot .extended [98]) 98 ∧
    98 % 100 ∉ Variant.extended.opcodes := ⟨⟨rfl, by decide⟩, rfl, by decide⟩
theorem witness_UnknownMode_third : ready (boot .extended [31101]) ∧ wordIs (boot .extended [31101]) 31101 ∧
    31101 % 100 ∈ Variant.extended.opcodes ∧ 3 ≤ operandCount (31101 % 100) ∧
    digitsLegal .extended 31101 (3 - 1) ∧ digit 31101 (3 + 1) ∉ Variant.extended.modes :=
  ⟨⟨rfl, by decide⟩, rfl, by decide, by decide, digitsLegal_of (by decide), by decide⟩
theorem witness_UnknownMode_first : ready (boot .narrow [204]) ∧ wordIs (boot .narrow [204]) 204 ∧
    204 % 100 ∈ Variant.narrow.opcodes ∧ 1 ≤ operandCount (204 % 100) ∧ digitsLegal .narrow 204 (1 - 1) ∧
    digit 204 (1 + 1) ∉ Variant.narrow.modes :=
  ⟨⟨rfl, by decide⟩, rfl, by decide, by decide, digitsLegal_of (by decide), by decide⟩
theorem witness_NegativeWord : ready (boot .narrow [-1]) ∧ (boot .narrow [-1]).readCell 0 < 0 :=
  ⟨⟨rfl, by decide⟩, by decide⟩
theorem witness_ExcessDigits_halt : ready (boot .narrow [199]) ∧ wordIs (boot .narrow [199]) 199 ∧
    199 % 100 ∈ Variant.narrow.opcodes ∧ digitsLegal .narrow 199 (operandCount (199 % 100)) ∧
    10 ^ operandCount (199 % 100) ≤ 199 / 100 :=
  ⟨⟨rfl, by decide⟩, rfl, by decide, digitsLegal_of (by decide), by decide⟩
theorem witness_ExcessDigits_out : ready (boot .extended [1104]) ∧ wordIs (boot .extended [1104]) 1104 ∧
    1104 % 100 ∈ Variant.extended.opcodes ∧ digitsLegal .extended 1104 (operandCount (1104 % 100)) ∧
    10 ^ operandCount (1104 % 100) ≤ 1104 / 100 :=
  ⟨⟨rfl, by decide⟩, rfl, by decide, digitsLegal_of (by decide), by decide⟩
theorem witness_ImmediateTarget_in : ready (boot .narrow [103]) ∧ wordIs (boot .narrow [103]) 103 ∧
    103 % 100 ∈ writes ∧ digitsLegal .narrow 103 (operandCount (103 % 100)) ∧
    103 / 100 < 10 ^ operandCount (103 % 100) ∧ digit 103 (operandCount (103 % 100) + 1) = 1 :=
  ⟨⟨rfl, by decide⟩, rfl, by decide, digitsLegal_of (by decide), by decide, by decide⟩
theorem witness_ImmediateTarget_eq : ready (boot .extended [12208]) ∧ wordIs (boot .extended [12208]) 12208 ∧
    12208 % 100 ∈ writes ∧ digitsLegal .extended 12208 (operandCount (12208 % 100)) ∧
    12208 / 100 < 10 ^ operandCount (12208 % 100) ∧ digit 12208 (operandCount (12208 % 100) + 1) = 1 :=
  ⟨⟨rfl, by decide⟩, rfl, by decide, digitsLegal_of (by decide), by decide, by decide⟩

/-- A machine that runs an ADD. -/
def adder : State := boot .narrow [1, 5, 6, 7, 99, -4, 9, 0]

theorem witness_StepRunsTheFetched : ready adder ∧
    decode adder.cfg.variant adder.window = .ok (.add (.pos 5) (.pos 6) (.pos 7), []) :=
  ⟨⟨rfl, by decide⟩, by decide⟩
theorem witness_StepRunsAPlaced : adder.err = none ∧
    (Instr.add (.pos 5) (.pos 6) (.pos 7)).wf adder.cfg.variant = true ∧
    adder.pc + (Instr.add (.pos 5) (.pos 6) (.pos 7)).length ≤ adder.cfg.memSize ∧
    placed (.add (.pos 5) (.pos 6) (.pos 7)) adder := by
  refine ⟨by decide, by decide, by decide, fun k x h => ?_⟩
  rcases k with _ | _ | _ | _ | k
  · cases h; rfl
  · cases h; rfl
  · cases h; rfl
  · cases h; rfl
  · simp [encode, Instr.operandWords] at h
theorem witness_Fetch_pastEnd : ({ adder with pc := 8 } : State).err = none ∧
    ({ adder with pc := 8 } : State).cfg.memSize ≤ ({ adder with pc := 8 } : State).pc := by decide
theorem witness_Fetch_lastCell : ready (boot .narrow [99]) ∧
    decodeWord .narrow ((boot .narrow [99]).readCell 0) = .ok .halt ∧
    0 + Form.halt.length ≤ (boot .narrow [99]).cfg.memSize := ⟨⟨rfl, by decide⟩, by decide, by decide⟩
theorem witness_Fetch_error : ready (boot .narrow [98]) ∧
    decodeWord .narrow ((boot .narrow [98]).readCell 0) = .error ⟨.unknownOpcode, 0, 98⟩ :=
  ⟨⟨rfl, by decide⟩, by decide⟩
theorem witness_Missing : ready (boot .narrow [1, 0, 0]) ∧
    decodeWord .narrow ((boot .narrow [1, 0, 0]).readCell 0) = .ok (.add .position .position .position) ∧
    (boot .narrow [1, 0, 0]).cfg.memSize < 0 + (Form.add .position .position .position).length :=
  ⟨⟨rfl, by decide⟩, by decide, by decide⟩

/-- A machine with an error latched. -/
def failed : State := { adder with err := some ⟨.invalidAddress, 0, 3, -1⟩, outq := [1, 2] }

theorem witness_Latched : failed.err = some ⟨.invalidAddress, 0, 3, -1⟩ := rfl
theorem witness_Latched_push : (hostOp (.push 5) failed).1.inq = [5] := by decide
theorem witness_Latched_pop : (hostOp .popFront failed).1.outq = [2] := by decide

/-- A machine blocked on input. -/
def blockedState : State := boot .narrow [3, 3, 99, 0]

theorem witness_Wait : (hostStep blockedState).2 = .wait := by decide
theorem witness_Wait_push : (blockedState.push 42).isSome = true := by decide
theorem witness_Wait_other : (hostOp .popBack blockedState).1.inq = [] := by decide
theorem witness_Halt : (hostStep (boot .narrow [99])).2 = .halt := by decide
theorem witness_OnlyOk_error : (hostStep (boot .narrow [98])).2 = .error ⟨.unknownOpcode, 0, 0, 98⟩ := by decide
theorem witness_Feeding : runFed 2 [[7], [8]] blockedState =
    ({ boot .narrow [3, 3, 99, 7] with pc := 2 }, .halt) := by decide
theorem witness_Narrow_size : adder.cfg.variant = .narrow ∧ (adder.cfg.memSize : Int) ≤ Variant.narrow.cellMax := by decide
theorem witness_Narrow : run 3 adder = ({ boot .narrow [1, 5, 6, 7, 99, -4, 9, 5] with pc := 4 }, .halt) := by decide
theorem witness_Run_ok : ∀ k, k < 1 → (hostStep (stepsFrom k adder)).2 = .ok := by decide
theorem witness_Run_stop : 1 < 2 ∧ (∀ j, j < 1 → (hostStep (stepsFrom j adder)).2 = .ok) ∧
    (hostStep (stepsFrom 1 adder)).2 ≠ .ok := by decide

/-- A machine with something in every field, which meets the invariants. -/
def busy : State where
  cfg := { variant := .extended, capacity := 8, memSize := 8 }
  mem := [(0, 22201), (1, -1), (2, 4), (7, 9223372036854775807)]
  pc := 0
  rb := 3
  inq := [-9223372036854775808]
  outq := [5, 6]
  err := none

theorem witness_Inv : busy.Inv where
  memWf := by decide
  memInside := by decide
  memFits := by decide
  pcMax := by decide
  rbFits := by decide
  rbNarrow := by decide
  inqFits := by decide
  outqFits := by decide
  errOk := by intro e he; cases he
  capMax := by decide
  capNarrow := by decide

theorem witness_Inv_step : (after (step busy)).isSome = true := by decide
theorem witness_Construction : construct .extended ['9', '9'] [5] 3 =
    .ok { cfg := { variant := .extended, capacity := 3, memSize := 3 }, mem := [(0, 99)], pc := 0, rb := 0,
          inq := [5], outq := [], err := none } := by decide
theorem witness_Fleet : (∀ s ∈ [busy], s.Inv) ∧ (fleetOp (.construct .narrow ['9', '9'] [] 0) [busy]).1.length = 2 ∧
    (fleetOp (.on 0 (.push 4)) [busy]).2 = .accepted ∧ (fleetOp (.clone 0) [busy]).2 = .created 1 :=
  ⟨by simpa using witness_Inv, by decide, by decide, by decide⟩
theorem witness_Construction_parse : parseProgram .narrow ['-', '5'] = some [-5] ∧
    ∀ x ∈ [(2147483647 : Int)], Variant.narrow.fits x := by decide
theorem witness_Start : construct .narrow ['9', '9'] [] 0 = .ok (boot .narrow [99]) ∧
    decode .narrow (boot .narrow [99]).window = .ok (.halt, []) := by decide

theorem witness_PcAdvances_jump : (boot .narrow [1105, 1, 7]).fetch = .instr (.jt (.imm 1) (.imm 7)) ∧
    (hostStep (boot .narrow [1105, 1, 7])).2 = .ok := by decide
/-- A machine with more cells than CELL_MAX. -/
def huge (pc : Nat) : State :=
  { boot .narrow [99] with cfg := { variant := .narrow, capacity := 0, memSize := 2 ^ 31 + 9 }, pc := pc }

theorem witness_PcAdvances_lastSum : (((huge (2 ^ 31 - 5)).pc + 4 : Nat) : Int) ≤ Variant.narrow.cellMax ∧
    ((huge (2 ^ 31 - 5)).pc : Int) ≤ Variant.narrow.cellMax := by decide
theorem witness_PcAdvances_pastMax : ¬ (((huge (2 ^ 31 - 1)).pc + 4 : Nat) : Int) ≤ Variant.narrow.cellMax ∧
    ((huge (2 ^ 31 - 1)).pc : Int) ≤ Variant.narrow.cellMax := by decide
theorem test_pc_at_its_limit : (huge (2 ^ 31 - 5)).nextPc 4 = 2 ^ 31 - 1 := by decide
theorem test_pc_past_its_limit : (huge (2 ^ 31 - 1)).nextPc 4 = 2 ^ 31 - 1 := by
  rcases nextPc_cases (huge (2 ^ 31 - 1)) 4 with ⟨h, -⟩ | ⟨-, h, h'⟩
  · exact absurd h (by decide)
  · have : (huge (2 ^ 31 - 1)).cfg.variant.cellMax = 2147483647 := by decide
    have := h' (by decide)
    simp only [huge] at *
    omega
theorem witness_PcAdvances_wait : (hostStep blockedState).2 ≠ .ok := by decide
theorem witness_Blocked : blockedState.fetch = .instr (.inp (.pos 3)) ∧ blockedState.loc 1 (.pos 3) = .ok 3 ∧
    blockedState.inq = [] := by decide
theorem witness_RelativeBase_add : adder.fetch = .instr (.add (.pos 5) (.pos 6) (.pos 7)) ∧
    plain (.add (.pos 5) (.pos 6) (.pos 7)) ∧ ∀ d, Instr.add (.pos 5) (.pos 6) (.pos 7) ≠ .arb d :=
  ⟨by decide, ⟨by simp [srcPlain, Src.mode], by simp [srcPlain, Src.mode], by simp [dstPlain, Dst.mode]⟩,
    fun d h => by cases h⟩
theorem witness_RelativeBase_arb : (boot .extended [109, 1, 99]).fetch = .instr (.arb (.imm 1)) ∧
    srcPlain (.imm 1) ∧ (boot .extended [109, 1, 99]).val 1 (.imm 1) = .ok 1 ∧
    Variant.extended.fits (0 + 1) ∧ Variant.extended.fits (9223372036854775806 + 1) :=
  ⟨by decide, by simp [srcPlain, Src.mode], by decide, by decide, by decide⟩
theorem witness_Queues_in : (boot .narrow [3, 3, 99, 0] [42, 43]).fetch = .instr (.inp (.pos 3)) ∧
    (hostStep (boot .narrow [3, 3, 99, 0] [42, 43])).2 = .ok := by decide
theorem witness_Queues_out : (boot .narrow [104, -7]).fetch = .instr (.out (.imm (-7))) ∧
    (hostStep (boot .narrow [104, -7])).2 = .ok := by decide
theorem witness_Queues_pops : busy.outq = 5 :: [6] ∧ busy.outq = [5] ++ [6] := by decide

theorem witness_MemoryFrame_target : after (exec (.add (.pos 5) (.pos 6) (.pos 7)) adder) ≠ none ∧
    target (.add (.pos 5) (.pos 6) (.pos 7)) = some (3, .pos 7) ∧ adder.loc 3 (.pos 7) = .ok 7 := by decide
theorem witness_MemoryFrame_error : adder.loc 3 (.pos 8) = .error ⟨.invalidAddress, 3, 8⟩ := by decide
theorem witness_MemoryFrame_none : target (.out (.imm 1)) = none ∧ after (exec (.out (.imm 1)) adder) ≠ none := by
  decide

/-! The instructions' hypotheses: operands in all modes on `busy` (base 3, 8 cells). -/

theorem witness_Add : busy.val 1 (.rel (-2)) = .ok (-1) ∧ busy.val 2 (.imm 5) = .ok 5 ∧ busy.loc 3 (.rel 4) = .ok 7 ∧
    busy.cfg.variant.fits (-1 + 5) := by decide
theorem witness_Add_limit : busy.val 1 (.pos 7) = .ok 9223372036854775807 ∧ busy.val 2 (.imm 0) = .ok 0 ∧
    busy.loc 3 (.pos 0) = .ok 0 ∧ busy.cfg.variant.fits (9223372036854775807 + 0) := by decide
theorem witness_Mul : busy.val 1 (.pos 1) = .ok (-1) ∧ busy.val 2 (.pos 7) = .ok 9223372036854775807 ∧
    busy.loc 3 (.pos 7) = .ok 7 ∧ busy.cfg.variant.fits (-1 * 9223372036854775807) := by decide
theorem witness_AddOverflow : busy.val 1 (.pos 7) = .ok 9223372036854775807 ∧ busy.val 2 (.imm 1) = .ok 1 ∧
    busy.loc 3 (.pos 7) = .ok 7 ∧ ¬ busy.cfg.variant.fits (9223372036854775807 + 1) := by decide
theorem witness_MulOverflow : busy.val 1 (.pos 7) = .ok 9223372036854775807 ∧ busy.val 2 (.imm 2) = .ok 2 ∧
    busy.loc 3 (.pos 7) = .ok 7 ∧ ¬ busy.cfg.variant.fits (9223372036854775807 * 2) := by decide
theorem witness_LtEq : busy.val 1 (.pos 1) = .ok (-1) ∧ busy.val 2 (.rel 3) = .ok 0 ∧ busy.loc 3 (.rel (-3)) = .ok 0 := by
  decide
theorem witness_In : busy.loc 1 (.rel (-3)) = .ok 0 ∧ busy.inq = -9223372036854775808 :: [] := by decide
theorem witness_InWaits : adder.loc 1 (.pos 7) = .ok 7 ∧ adder.inq = [] := by decide
theorem witness_InError : adder.loc 1 (.pos (-1)) = .error ⟨.invalidAddress, 1, -1⟩ := by decide
theorem witness_Out : busy.val 1 (.rel 4) = .ok 9223372036854775807 := by decide
theorem witness_Jump_taken : busy.val 1 (.pos 1) = .ok (-1) ∧ busy.val 2 (.pos 7) = .ok 9223372036854775807 ∧
    (-1 : Int) ≠ 0 ∧ (0 : Int) ≤ 9223372036854775807 := by decide
theorem witness_Jump_zero : busy.val 1 (.pos 3) = .ok 0 ∧ busy.val 2 (.imm 0) = .ok 0 := by decide
theorem witness_Jump_negative : busy.val 1 (.pos 1) = .ok (-1) ∧ busy.val 2 (.pos 1) = .ok (-1) ∧ (-1 : Int) < 0 := by
  decide
theorem witness_Jump_negative_zero : busy.val 1 (.pos 3) = .ok 0 ∧ busy.val 2 (.pos 1) = .ok (-1) := by decide
theorem witness_Arb : busy.cfg.variant = .extended ∧ busy.val 1 (.pos 1) = .ok (-1) ∧
    busy.cfg.variant.fits (busy.rb + -1) := by decide
theorem witness_ArbOverflow : busy.cfg.variant = .extended ∧ busy.val 1 (.pos 7) = .ok 9223372036854775807 ∧
    ¬ busy.cfg.variant.fits (busy.rb + 9223372036854775807) := by decide
theorem witness_ArbNarrow : ready (boot .narrow [109, 1]) ∧ wordIs (boot .narrow [109, 1]) 109 ∧ 109 % 100 = 9 :=
  ⟨⟨rfl, by decide⟩, rfl, by decide⟩
theorem witness_OperandErrors : busy.val 1 (.pos 8) = .error ⟨.invalidAddress, 1, 8⟩ ∧ busy.val 1 (.imm 1) = .ok 1 ∧
    busy.val 2 (.rel (-4)) = .error ⟨.invalidAddress, 2, -1⟩ ∧ busy.val 2 (.imm 1) = .ok 1 ∧
    busy.loc 3 (.pos (-1)) = .error ⟨.invalidAddress, 3, -1⟩ := by decide
theorem witness_Operands_last : (7 : Nat) < busy.cfg.memSize ∧ busy.rb + 4 = (7 : Nat) := by decide
theorem witness_Addresses : busy.rb + (-4) < 0 ∧ (busy.cfg.memSize : Int) ≤ 8 ∧ (busy.cfg.memSize : Int) ≤ busy.rb + 5 := by
  decide
theorem witness_BaseZero : (boot .extended [4, 3, 99, 77]).cfg.variant = .extended ∧ (boot .extended [4, 3, 99, 77]).rb = 0 := by
  decide
theorem witness_ReadAfterWrite : busy.mem.wf = true ∧ busy.mem.write 7 0 = [(0, 22201), (1, -1), (2, 4)] := by decide
theorem witness_Push : Variant.narrow.fits 2147483647 ∧ ¬ Variant.narrow.fits 2147483648 := by decide
theorem witness_EmptyPops : adder.outq = [] := rfl
theorem witness_Inspect : 7 < busy.cfg.memSize ∧ busy.cfg.memSize ≤ 8 := by decide
theorem witness_Instances : [adder, busy][1]? = some busy ∧ 0 < [adder, busy].length := by decide
theorem witness_Table : busy.cfg.variant = .extended ∧ decodeTableWord 8 99 = some .halt := by decide
theorem witness_Pseudo : busy.val 1 (.pos 7) = .ok 9223372036854775807 ∧ busy.loc 3 (.pos 0) = .ok 0 ∧
    busy.cfg.variant.fits 9223372036854775807 ∧ busy.val 2 (.imm 0) = .ok 0 := by decide

end Sys2Proof.Tests
end

section
/-! Blocked and halted (10_state.md R31). First the decoder: the only word that decodes to HALT is 99. Then what a step's
status says of how it ended, and from these the two conditions. -/

namespace Sys2Proof

/-- A bind answers a value exactly where both its parts do. -/
theorem except_bind_eq_ok {ε α β : Type} {x : Except ε α} {f : α → Except ε β} {r : β} :
    x >>= f = .ok r ↔ ∃ a, x = .ok a ∧ f a = .ok r := by
  cases x with
  | error e => simp [bind, Except.bind]
  | ok a => simp [bind, Except.bind]

/-! What each format decodes to: its operation, with some modes (30_encoding.md R65). -/

theorem decodeFR_ok {v : Variant} {n : Nat} {f : Mode → Form} {g : Form} (h : decodeFR v n f = .ok g) :
    ∃ m1, g = f m1 := by
  obtain ⟨m1, -, h⟩ := except_bind_eq_ok.1 h
  obtain ⟨-, -, h⟩ := except_bind_eq_ok.1 h
  cases h
  exact ⟨m1, rfl⟩

theorem decodeFW_ok {v : Variant} {n : Nat} {f : TargetMode → Form} {g : Form} (h : decodeFW v n f = .ok g) :
    ∃ t1, g = f t1 := by
  obtain ⟨m1, -, h⟩ := except_bind_eq_ok.1 h
  obtain ⟨-, -, h⟩ := except_bind_eq_ok.1 h
  obtain ⟨t1, -, h⟩ := except_bind_eq_ok.1 h
  cases h
  exact ⟨t1, rfl⟩

theorem decodeFRR_ok {v : Variant} {n : Nat} {f : Mode → Mode → Form} {g : Form} (h : decodeFRR v n f = .ok g) :
    ∃ m1 m2, g = f m1 m2 := by
  obtain ⟨m1, -, h⟩ := except_bind_eq_ok.1 h
  obtain ⟨m2, -, h⟩ := except_bind_eq_ok.1 h
  obtain ⟨-, -, h⟩ := except_bind_eq_ok.1 h
  cases h
  exact ⟨m1, m2, rfl⟩

theorem decodeFRRW_ok {v : Variant} {n : Nat} {f : Mode → Mode → TargetMode → Form} {g : Form}
    (h : decodeFRRW v n f = .ok g) : ∃ m1 m2 t3, g = f m1 m2 t3 := by
  obtain ⟨m1, -, h⟩ := except_bind_eq_ok.1 h
  obtain ⟨m2, -, h⟩ := except_bind_eq_ok.1 h
  obtain ⟨m3, -, h⟩ := except_bind_eq_ok.1 h
  obtain ⟨-, -, h⟩ := except_bind_eq_ok.1 h
  obtain ⟨t3, -, h⟩ := except_bind_eq_ok.1 h
  cases h
  exact ⟨m1, m2, t3, rfl⟩

/-- Format F0 has no operand, so no digit may stand before the opcode (R64). -/
theorem decodeF0_ok {n : Nat} {f g : Form} (h : decodeF0 n f = .ok g) : n / 100 = 0 ∧ g = f := by
  obtain ⟨_, hx, h⟩ := except_bind_eq_ok.1 h
  cases h
  rcases decodeNoExcess_cases n 0 with ⟨hlt, -⟩ | ⟨-, he⟩
  · exact ⟨by omega, rfl⟩
  · rw [he] at hx
    cases hx

/-- The only non-negative word that decodes to HALT is 99: the other opcodes give their own operations, and opcode 99
with a digit before it is UNKNOWN_MODE. -/
theorem decodeNat_halt {v : Variant} {n : Nat} (h : decodeNat v n = .ok .halt) : n = 99 := by
  unfold decodeNat at h
  split at h
  · split at h
    case h_1 | h_2 | h_7 | h_8 =>
      obtain ⟨_, _, _, hf⟩ := decodeFRRW_ok h
      cases hf
    case h_3 =>
      obtain ⟨_, hf⟩ := decodeFW_ok h
      cases hf
    case h_4 | h_9 =>
      obtain ⟨_, hf⟩ := decodeFR_ok h
      cases hf
    case h_5 | h_6 =>
      obtain ⟨_, _, hf⟩ := decodeFRR_ok h
      cases hf
    case h_10 hop =>
      obtain ⟨hdiv, -⟩ := decodeF0_ok h
      omega
    case h_11 => cases h
  · cases h

/-- HALT is the word 99 in both variants (30_encoding.md R67, R75). -/
theorem decodeWord_eq_halt_iff (v : Variant) (w : Int) : decodeWord v w = .ok .halt ↔ w = 99 := by
  constructor
  · intro h
    unfold decodeWord at h
    split at h
    · cases h
    · have := decodeNat_halt h
      omega
  · rintro rfl
    cases v <;> decide

/-- Taking the operand words keeps the operation and its modes. -/
theorem form_of_takeOperands {f : Form} {cells : List Int} {i : Instr} {r : List Int}
    (h : f.takeOperands cells = some (i, r)) : i.form = f := by
  unfold Form.takeOperands at h
  split at h <;> cases h <;> simp [Instr.form]

theorem form_eq_halt_iff {i : Instr} : i.form = .halt ↔ i = .halt := by
  cases i <;> simp [Instr.form]

/-- Cells decode exactly where the first is a legal word and the others hold its operands. -/
theorem decode_cons_eq_ok_iff (v : Variant) (w : Int) (cells : List Int) (i : Instr) (r : List Int) :
    decode v (w :: cells) = .ok (i, r) ↔ ∃ f, decodeWord v w = .ok f ∧ f.takeOperands cells = some (i, r) := by
  cases hw : decodeWord v w with
  | error t => simp [decode, hw]
  | ok f => cases ht : f.takeOperands cells <;> simp [decode, hw, ht]

/-- HALT is what the cells begin with exactly when the first one is 99, whatever follows. -/
theorem decode_halt_iff (v : Variant) (w : Int) (cells : List Int) :
    (∃ r, decode v (w :: cells) = .ok (.halt, r)) ↔ w = 99 := by
  simp only [decode_cons_eq_ok_iff, ← decodeWord_eq_halt_iff v w]
  constructor
  · rintro ⟨r, f, hf, hops⟩
    rwa [← form_of_takeOperands hops] at hf
  · intro h
    exact ⟨cells, .halt, h, rfl⟩

/-- A list with a word in it is never answered as one without. -/
theorem decode_cons_ne_noWord (v : Variant) (w : Int) (cells : List Int) :
    decode v (w :: cells) ≠ .error .noWord := by
  cases hw : decodeWord v w with
  | error t => simp [decode, hw]
  | ok f => cases ht : f.takeOperands cells <;> simp [decode, hw, ht]

end Sys2Proof

namespace Sys2Proof.Machine

/-! FETCH and DECODE (40_pipeline.md R82 to R84). -/

/-- With `pc` inside memory the window begins with the word at `pc`. -/
theorem window_eq_cons {s : State} (h : s.pc < s.cfg.memSize) : ∃ cells, s.window = s.readCell s.pc :: cells := by
  have hlen : 0 < s.window.length := by rw [length_window, longestInstr]; omega
  refine ⟨s.window.tail, ?_⟩
  calc s.window = s.window[0] :: s.window.tail := by rw [List.getElem_zero, List.cons_head_tail]
    _ = s.readCell s.pc :: s.window.tail := by rw [window_get]; rfl

theorem decodeAtPc_eq_instr_iff (s : State) (i : Instr) :
    s.decodeAtPc = .instr i ↔ ∃ r, decode s.cfg.variant s.window = .ok (i, r) := by
  unfold State.decodeAtPc
  split <;> simp [*]

/-- Decoding finds a word wherever `pc` is inside memory, so it never answers that `pc` is past the end. -/
theorem decodeAtPc_ne_pastEnd {s : State} (h : s.pc < s.cfg.memSize) : s.decodeAtPc ≠ .pastEnd := by
  obtain ⟨cells, hw⟩ := window_eq_cons h
  have hne := decode_cons_ne_noWord s.cfg.variant (s.readCell s.pc) cells
  rw [← hw] at hne
  unfold State.decodeAtPc
  split
  case h_4 he => exact absurd he hne
  all_goals simp

theorem fetch_pastEnd_iff {s : State} (h : s.err = none) : s.fetch = .pastEnd ↔ s.cfg.memSize ≤ s.pc := by
  constructor
  · intro hf
    by_contra hp
    have hp : s.pc < s.cfg.memSize := Nat.lt_of_not_le hp
    exact decodeAtPc_ne_pastEnd hp (fetch_inside h hp ▸ hf)
  · exact fetch_pastEnd h

theorem fetch_halt_iff {s : State} (h : s.err = none) (hp : s.pc < s.cfg.memSize) :
    s.fetch = .instr .halt ↔ s.readCell s.pc = 99 := by
  obtain ⟨cells, hw⟩ := window_eq_cons hp
  rw [fetch_inside h hp, decodeAtPc_eq_instr_iff, hw, decode_halt_iff]

/-! Which endings are WAIT and HALT, and what a step reports. -/

theorem statusOf_eq_wait_iff (s : State) (e : Ending) : s.statusOf e = .wait ↔ e = .wait := by
  cases e <;> simp

theorem statusOf_eq_halt_iff (s : State) (e : Ending) : s.statusOf e = .halt ↔ e = .halt := by
  cases e <;> simp

theorem aluEnding_commit_or_trap (f : Int → Int → Except Trap Int) (a b : Src) (t : Dst) (s : State) :
    (∃ e, aluEnding f a b t s = .commit e) ∨ ∃ e, aluEnding f a b t s = .trap e := by
  rcases aluEnding_cases f a b t s with ⟨e, -, h⟩ | ⟨_, e, -, -, h⟩ | ⟨_, _, e, -, -, -, h⟩ |
    ⟨_, _, _, e, -, -, -, -, h⟩ | ⟨_, _, _, _, -, -, -, -, h⟩
  case inr.inr.inr.inr => exact .inl ⟨_, h⟩
  all_goals exact .inr ⟨e, h⟩

theorem outEnding_commit_or_trap (a : Src) (s : State) :
    (∃ e, outEnding a s = .commit e) ∨ ∃ e, outEnding a s = .trap e := by
  rcases outEnding_cases a s with ⟨e, -, h⟩ | ⟨_, -, h⟩
  · exact .inr ⟨e, h⟩
  · exact .inl ⟨_, h⟩

theorem jumpEnding_commit_or_trap (taken : Int → Bool) (c g : Src) (s : State) :
    (∃ e, jumpEnding taken c g s = .commit e) ∨ ∃ e, jumpEnding taken c g s = .trap e := by
  rcases jumpEnding_cases taken c g s with ⟨e, -, h⟩ | ⟨_, e, -, -, h⟩ | ⟨_, _, -, -, -, -, h⟩ |
    ⟨_, _, -, -, -, -, h⟩ | ⟨_, _, -, -, -, h⟩
  · exact .inr ⟨e, h⟩
  · exact .inr ⟨e, h⟩
  · exact .inr ⟨_, h⟩
  · exact .inl ⟨_, h⟩
  · exact .inl ⟨_, h⟩

theorem arbEnding_commit_or_trap (d : Src) (s : State) :
    (∃ e, arbEnding d s = .commit e) ∨ ∃ e, arbEnding d s = .trap e := by
  rcases arbEnding_cases d s with ⟨-, h⟩ | ⟨e, -, -, h⟩ | ⟨_, -, -, -, h⟩ | ⟨_, -, -, -, h⟩
  · exact .inr ⟨_, h⟩
  · exact .inr ⟨e, h⟩
  · exact .inr ⟨_, h⟩
  · exact .inl ⟨_, h⟩

/-- The input gate: IN waits exactly where its target resolves and the queue is empty (R86, 42_io.md R120). -/
theorem inpEnding_eq_wait_iff (d : Dst) (s : State) :
    inpEnding d s = .wait ↔ ∃ l, s.loc 1 d = .ok l ∧ s.inq = [] := by
  rcases inpEnding_cases d s with ⟨e, hl, h⟩ | ⟨l, hl, hq, h⟩ | ⟨l, v, q, hl, hq, h⟩
  · simp [h, hl]
  · simp [h, hl, hq]
  · simp [h, hq]

theorem inpEnding_ne_halt (d : Dst) (s : State) : inpEnding d s ≠ .halt := by
  rcases inpEnding_cases d s with ⟨e, -, h⟩ | ⟨l, -, -, h⟩ | ⟨l, v, q, -, -, h⟩ <;> simp [h]

/-- Every instruction but IN and HALT ends in an effect or an error. -/
theorem ending_cases (i : Instr) (s : State) :
    (∃ d, i = .inp d) ∨ i = .halt ∨
    ((∀ d, i ≠ .inp d) ∧ i ≠ .halt ∧ ((∃ e, ending i s = .commit e) ∨ ∃ e, ending i s = .trap e)) := by
  cases i with
  | add a b t => exact .inr (.inr ⟨nofun, nofun, aluEnding_commit_or_trap _ a b t s⟩)
  | mul a b t => exact .inr (.inr ⟨nofun, nofun, aluEnding_commit_or_trap _ a b t s⟩)
  | lt a b t => exact .inr (.inr ⟨nofun, nofun, aluEnding_commit_or_trap _ a b t s⟩)
  | eq a b t => exact .inr (.inr ⟨nofun, nofun, aluEnding_commit_or_trap _ a b t s⟩)
  | jt c g => exact .inr (.inr ⟨nofun, nofun, jumpEnding_commit_or_trap _ c g s⟩)
  | jf c g => exact .inr (.inr ⟨nofun, nofun, jumpEnding_commit_or_trap _ c g s⟩)
  | out a => exact .inr (.inr ⟨nofun, nofun, outEnding_commit_or_trap a s⟩)
  | arb d => exact .inr (.inr ⟨nofun, nofun, arbEnding_commit_or_trap d s⟩)
  | inp d => exact .inl ⟨d, rfl⟩
  | halt => exact .inr (.inl rfl)

theorem ending_eq_wait_iff (i : Instr) (s : State) :
    ending i s = .wait ↔ ∃ d l, i = .inp d ∧ s.loc 1 d = .ok l ∧ s.inq = [] := by
  obtain ⟨d, rfl⟩ | rfl | ⟨hinp, -, ⟨e, h⟩ | ⟨e, h⟩⟩ := ending_cases i s
  · simpa [ending] using inpEnding_eq_wait_iff d s
  · simp [ending, haltEnding]
  · simp [h, hinp]
  · simp [h, hinp]

theorem ending_eq_halt_iff (i : Instr) (s : State) : ending i s = .halt ↔ i = .halt := by
  obtain ⟨d, rfl⟩ | rfl | ⟨-, hhalt, ⟨e, h⟩ | ⟨e, h⟩⟩ := ending_cases i s
  · simpa [ending] using inpEnding_ne_halt d s
  · simp [ending, haltEnding]
  · simp [h, hhalt]
  · simp [h, hhalt]

theorem hostStep_wait_iff (s : State) :
    (hostStep s).2 = .wait ↔ ∃ i, s.fetch = .instr i ∧ ending i s = .wait := by
  cases hf : s.fetch <;> simp [hostStep, hf, statusOf_eq_wait_iff]

theorem hostStep_halt_iff (s : State) :
    (hostStep s).2 = .halt ↔ s.fetch = .pastEnd ∨ ∃ i, s.fetch = .instr i ∧ ending i s = .halt := by
  cases hf : s.fetch <;> simp [hostStep, hf, statusOf_eq_halt_iff]

/-! The two conditions of R31. -/

theorem blocked_iff (s : State) :
    s.blocked = true ↔ ∃ d l, s.fetch = .instr (.inp d) ∧ s.loc 1 d = .ok l ∧ s.inq = [] := by
  unfold State.blocked
  split
  · next t hf =>
    cases hl : s.loc 1 t <;> simp [hf, hl]
  · next hne =>
    constructor
    · simp
    · rintro ⟨d, -, hf, -, -⟩
      exact absurd hf (hne d)

theorem halted_iff (s : State) : s.halted = true ↔ s.cfg.memSize ≤ s.pc ∨ s.readCell s.pc = 99 := by
  simp [State.halted]

/-- WAIT is reported exactly on the condition *blocked*, whether or not an error is latched. -/
theorem hostStep_wait_iff_blocked (s : State) : (hostStep s).2 = .wait ↔ s.blocked = true := by
  rw [hostStep_wait_iff, blocked_iff]
  simp only [ending_eq_wait_iff]
  constructor
  · rintro ⟨_, hf, d, l, rfl, hl, hq⟩
    exact ⟨d, l, hf, hl, hq⟩
  · rintro ⟨d, l, hf, hl, hq⟩
    exact ⟨_, hf, d, l, rfl, hl, hq⟩

/-- HALT is reported exactly on the condition *halted*: past the end FETCH reports it, inside memory the word 99 is the
one that decodes to HALT. -/
theorem hostStep_halt_iff_halted {s : State} (h : s.err = none) : (hostStep s).2 = .halt ↔ s.halted = true := by
  have hrep : (hostStep s).2 = .halt ↔ s.fetch = .pastEnd ∨ s.fetch = .instr .halt := by
    simp [hostStep_halt_iff, ending_eq_halt_iff]
  rw [hrep, halted_iff, fetch_pastEnd_iff h]
  by_cases hp : s.cfg.memSize ≤ s.pc
  · simp [hp]
  · rw [fetch_halt_iff h (Nat.lt_of_not_le hp)]

/-- Settles O26: blocked and halted are computed from the state, and they are what WAIT and HALT report. -/
theorem blockedAndHaltedAreConditions : Obligations.BlockedAndHaltedAreConditions := by
  intro s h
  exact ⟨hostStep_wait_iff_blocked s, blocked_iff s, hostStep_halt_iff_halted h, halted_iff s⟩

end Sys2Proof.Machine
end

section
/-! Unknown opcodes and unknown mode digits (30_encoding.md R68). First the decoder, a format at a time: it answers with the
first operand whose mode digit is illegal, before it looks at excess digits or at the write target (40_pipeline.md R83).
Then the step: what the decoder raises at `pc` is what the step raises. -/

open Sys2Proof.Claims

namespace Sys2Proof

/-- A word is decoded by its opcode where it is not negative (R61, R70). -/
@[simp] theorem decodeWord_natCast (v : Variant) (n : Nat) : decodeWord v n = decodeNat v n := by
  simp [decodeWord]

theorem decodeNat_unknownOpcode {v : Variant} {n : Nat} (h : n % 100 ∉ v.opcodes) :
    decodeNat v n = .error ⟨.unknownOpcode, 0, n⟩ := if_neg h

/-! One mode digit, with whatever the decoder does after it. -/

theorem decodeMode_bind_legal {α : Type} {v : Variant} {n k : Nat} (f : Mode → Except Trap α)
    (h : digit n (k + 1) ∈ v.modes) : decodeMode v n k >>= f = f (Mode.ofDigit (digit n (k + 1))) := by
  rw [decodeMode, if_pos h]; rfl

theorem decodeMode_bind_illegal {α : Type} {v : Variant} {n k : Nat} (f : Mode → Except Trap α)
    (h : digit n (k + 1) ∉ v.modes) : decodeMode v n k >>= f = .error ⟨.unknownMode, k, digit n (k + 1)⟩ := by
  rw [decodeMode, if_neg h]; rfl

/-! The formats with operands (R65), where operand `k` has the first illegal mode digit. -/

section
variable {v : Variant} {n k : Nat} (h1 : 1 ≤ k) (hlegal : digitsLegal v n (k - 1)) (hk : digit n (k + 1) ∉ v.modes)
include h1 hlegal hk

theorem decodeFR_unknownMode (f : Mode → Form) (hle : k ≤ 1) :
    decodeFR v n f = .error ⟨.unknownMode, k, digit n (k + 1)⟩ := by
  obtain rfl : k = 1 := by omega
  exact decodeMode_bind_illegal _ hk

theorem decodeFW_unknownMode (f : TargetMode → Form) (hle : k ≤ 1) :
    decodeFW v n f = .error ⟨.unknownMode, k, digit n (k + 1)⟩ := by
  obtain rfl : k = 1 := by omega
  exact decodeMode_bind_illegal _ hk

theorem decodeFRR_unknownMode (f : Mode → Mode → Form) (hle : k ≤ 2) :
    decodeFRR v n f = .error ⟨.unknownMode, k, digit n (k + 1)⟩ := by
  obtain rfl | rfl : k = 1 ∨ k = 2 := by omega
  · exact decodeMode_bind_illegal _ hk
  · rw [decodeFRR, decodeMode_bind_legal _ (hlegal 1 (by omega) (by omega))]
    exact decodeMode_bind_illegal _ hk

theorem decodeFRRW_unknownMode (f : Mode → Mode → TargetMode → Form) (hle : k ≤ 3) :
    decodeFRRW v n f = .error ⟨.unknownMode, k, digit n (k + 1)⟩ := by
  obtain rfl | rfl | rfl : k = 1 ∨ k = 2 ∨ k = 3 := by omega
  · exact decodeMode_bind_illegal _ hk
  · rw [decodeFRRW, decodeMode_bind_legal _ (hlegal 1 (by omega) (by omega))]
    exact decodeMode_bind_illegal _ hk
  · rw [decodeFRRW, decodeMode_bind_legal _ (hlegal 1 (by omega) (by omega)),
      decodeMode_bind_legal _ (hlegal 2 (by omega) (by omega))]
    exact decodeMode_bind_illegal _ hk

/-- Whatever the format, the decoder reports the first used operand with an illegal mode digit. HALT uses none. -/
theorem decodeNat_unknownMode (hop : n % 100 ∈ v.opcodes) (hle : k ≤ operandCount (n % 100)) :
    decodeNat v n = .error ⟨.unknownMode, k, digit n (k + 1)⟩ := by
  rw [decodeNat, if_pos hop]
  split
  case h_1 e | h_2 e | h_7 e | h_8 e => exact decodeFRRW_unknownMode h1 hlegal hk _ (by rwa [e] at hle)
  case h_3 e => exact decodeFW_unknownMode h1 hlegal hk _ (by rwa [e] at hle)
  case h_4 e | h_9 e => exact decodeFR_unknownMode h1 hlegal hk _ (by rwa [e] at hle)
  case h_5 e | h_6 e => exact decodeFRR_unknownMode h1 hlegal hk _ (by rwa [e] at hle)
  case h_10 e =>
    rw [e] at hle
    exact absurd (h1.trans hle) (by decide)
  case h_11 =>
    -- The arms before this one take every opcode of either variant.
    cases v <;> simp_all [Variant.opcodes]

end

/-- A word the decoder rejects is rejected whatever cells follow it. -/
theorem decode_cons_illegal {v : Variant} {w : Int} {t : Trap} (h : decodeWord v w = .error t) (cells : List Int) :
    decode v (w :: cells) = .error (.illegal t) := by
  simp [decode, h]

end Sys2Proof

namespace Sys2Proof.Machine

/-- What DECODE raises on the word at `pc` is what FETCH and DECODE end in (40_pipeline.md R83). -/
theorem fetch_trap_of_decodeWord {s : State} {t : Trap} (h : ready s)
    (hw : decodeWord s.cfg.variant (s.readCell s.pc) = .error t) : s.fetch = .trap t := by
  obtain ⟨herr, hpc⟩ := h
  obtain ⟨cells, hwin⟩ := window_eq_cons hpc
  rw [fetch_inside herr hpc, State.decodeAtPc, hwin, decode_cons_illegal hw]

/-- What DECODE raises on the word at `pc` is what the step raises (R83, R89). -/
theorem hostStep_raised_of_decodeWord {s : State} {t : Trap} (h : ready s)
    (hw : decodeWord s.cfg.variant (s.readCell s.pc) = .error t) : hostStep s = raised s t := by
  rw [hostStep, fetch_trap_of_decodeWord h hw, raised]

theorem hostStep_raised_of_decodeNat {s : State} {n : Nat} {t : Trap} (h : ready s) (hn : wordIs s n)
    (ht : decodeNat s.cfg.variant n = .error t) : hostStep s = raised s t := by
  refine hostStep_raised_of_decodeWord h ?_
  rw [hn, decodeWord_natCast, ht]

/-- Settles O5: the decoder raises both errors on the word at `pc`, and the step raises what the decoder does. -/
theorem unknownOpcodesAndModesRaise : Obligations.UnknownOpcodesAndModesRaise := by
  intro s n h hn
  refine ⟨fun hop => ?_, fun hop k h1 hle hlegal hk => ?_⟩
  · exact hostStep_raised_of_decodeNat h hn (decodeNat_unknownOpcode hop)
  · exact hostStep_raised_of_decodeNat h hn (decodeNat_unknownMode h1 hlegal hk hop hle)

end Sys2Proof.Machine
end

section
/-! FETCH (40_pipeline.md R82). A form and as many words as it has operands make an instruction, and where the operands
lie inside memory the window begins with the word at `pc` and them. So the word at `pc` decides what is fetched. -/

open Sys2Proof.Claims

namespace Sys2Proof

/-- The longest instruction has three operands (30_encoding.md R65). -/
theorem length_le_longestInstr (f : Form) : f.length ≤ longestInstr := by
  cases f <;> simp [Form.length, Form.operands, longestInstr]

/-- Taking the operand words moves them into the instruction and leaves the other cells. -/
theorem operandWords_of_takeOperands {f : Form} {cells : List Int} {i : Instr} {r : List Int}
    (h : f.takeOperands cells = some (i, r)) : i.operandWords ++ r = cells := by
  unfold Form.takeOperands at h
  split at h <;> cases h <;> simp [Instr.operandWords]

/-- Operand words, one for each operand of a form, make an instruction of that form (30_encoding.md R60). -/
theorem exists_instr_of_operandWords (f : Form) {ws : List Int} (h : ws.length = f.operands) :
    ∃ i : Instr, i.form = f ∧ i.operandWords = ws := by
  have ⟨i, hi⟩ : ∃ i : Instr, f.takeOperands ws = some (i, []) :=
    match f, ws, h with
    | .add _ _ _, [_, _, _], _ | .mul _ _ _, [_, _, _], _ | .lt _ _ _, [_, _, _], _ | .eq _ _ _, [_, _, _], _
    | .jt _ _, [_, _], _ | .jf _ _, [_, _], _ | .inp _, [_], _ | .out _, [_], _ | .arb _, [_], _
    | .halt, [], _ => ⟨_, rfl⟩
  exact ⟨i, form_of_takeOperands hi, by simpa using operandWords_of_takeOperands hi⟩

end Sys2Proof

namespace Sys2Proof.Machine

/-- The `n` cells after the word at `pc`: where an instruction with `n` operands has its operand words
(30_encoding.md R60). -/
def State.cellsAfterPc (s : State) (n : Nat) : List Int :=
  (List.range n).map (fun k => s.readCell (s.pc + 1 + k))

@[simp] theorem length_cellsAfterPc (s : State) (n : Nat) : (s.cellsAfterPc n).length = n := by
  simp [State.cellsAfterPc]

/-- As far as memory reaches, the window is the word at `pc` and the cells after it (40_pipeline.md R82, R84). -/
theorem window_eq_cons_operands {s : State} {n : Nat} (hn : 1 + n ≤ longestInstr)
    (h : s.pc + (1 + n) ≤ s.cfg.memSize) :
    ∃ rest, s.window = s.readCell s.pc :: (s.cellsAfterPc n ++ rest) := by
  have htake : s.window.take (n + 1) = s.readCell s.pc :: s.cellsAfterPc n := by
    have hmin : min (n + 1) (min longestInstr (s.cfg.memSize - s.pc)) = n + 1 := by omega
    rw [State.window, ← List.map_take, List.take_range, hmin, List.range_succ_eq_map]
    simp [State.cellsAfterPc, Nat.add_assoc, Nat.add_comm 1]
  refine ⟨s.window.drop (n + 1), ?_⟩
  rw [← List.cons_append, ← htake, List.take_append_drop]

/-- Where the word at `pc` is legal and its operands lie inside memory, its form with the cells after it is fetched. -/
theorem fetch_instr_of_decodeWord {s : State} {f : Form} (h : ready s)
    (hw : decodeWord s.cfg.variant (s.readCell s.pc) = .ok f) (hlen : s.pc + f.length ≤ s.cfg.memSize) :
    ∃ i, i.form = f ∧ i.operandWords = s.cellsAfterPc f.operands ∧ s.fetch = .instr i := by
  obtain ⟨herr, hpc⟩ := h
  obtain ⟨rest, hwin⟩ := window_eq_cons_operands (length_le_longestInstr f) hlen
  obtain ⟨i, rfl, hops⟩ := exists_instr_of_operandWords f (length_cellsAfterPc s f.operands)
  refine ⟨i, rfl, hops, ?_⟩
  rw [fetch_inside herr hpc, decodeAtPc_eq_instr_iff, hwin, ← hops]
  exact ⟨rest, (decode_cons_eq_ok_iff ..).2 ⟨i.form, hw, takeOperands_operandWords i rest⟩⟩

/-- Settles O11: past the end FETCH halts, and inside memory what is fetched follows from the word at `pc`. -/
theorem fetchReadsTheWordAtPcOrHalts : Obligations.FetchReadsTheWordAtPcOrHalts := by
  intro s herr
  refine ⟨fun hp => ?_, fun hp => ⟨fun t ht => ?_, fun f hw hlen => ?_⟩⟩
  · rw [hostStep, fetch_pastEnd herr hp]
  · exact hostStep_raised_of_decodeWord ⟨herr, hp⟩ ht
  · obtain ⟨i, hform, hops, hfetch⟩ := fetch_instr_of_decodeWord ⟨herr, hp⟩ hw hlen
    exact ⟨i, hform, hops, by rw [step, hfetch]⟩

end Sys2Proof.Machine
end

section
/-! The queues (42_io.md R122). A step that answers `ok` has committed an effect, so what it does to the queues stands in
the effect: ADD, MUL, LT, EQ, the jumps and ARB commit one that leaves both alone, IN's pops the input, OUT's appends to
the output. -/

open Sys2Proof.Claims

namespace Sys2Proof.Machine

/-! A step that answers `ok`. -/

theorem statusOf_eq_ok_iff (s : State) (e : Ending) : s.statusOf e = .ok ↔ ∃ f, e = .commit f := by
  cases e <;> simp

/-- A step over a fetched instruction answers `ok` only by COMMIT (40_pipeline.md R88). -/
theorem commit_of_hostStep_ok {s t : State} {i : Instr} (hf : s.fetch = .instr i) (h : hostStep s = (t, .ok)) :
    ∃ e, ending i s = .commit e ∧ t = s.commit e := by
  rw [hostStep, hf, Prod.mk.injEq] at h
  obtain ⟨ht, hok⟩ := h
  obtain ⟨e, he⟩ := (statusOf_eq_ok_iff s (ending i s)).1 hok
  exact ⟨e, he, by rw [← ht, he, conclude_commit]⟩

/-! The effects that leave both queues alone. -/

/-- The effect neither pops the input nor appends to the output (40_pipeline.md R87). -/
def Effect.sparesQueues (e : Effect) : Prop := e.popIn = false ∧ e.out = none

theorem commit_queues_of_sparesQueues (s : State) {e : Effect} (h : e.sparesQueues) :
    (s.commit e).inq = s.inq ∧ (s.commit e).outq = s.outq :=
  ⟨commit_inq_keep s e h.1, commit_outq_keep s e h.2⟩

theorem aluEnding_sparesQueues {f : Int → Int → Except Trap Int} {a b : Src} {t : Dst} {s : State} {e : Effect}
    (h : aluEnding f a b t s = .commit e) : e.sparesQueues := by
  rcases aluEnding_cases f a b t s with ⟨_, -, he⟩ | ⟨_, _, -, -, he⟩ | ⟨_, _, _, -, -, -, he⟩ |
    ⟨_, _, _, _, -, -, -, -, he⟩ | ⟨_, _, _, _, -, -, -, -, he⟩ <;> cases he.symm.trans h
  exact ⟨rfl, rfl⟩

theorem jumpEnding_sparesQueues {taken : Int → Bool} {c g : Src} {s : State} {e : Effect}
    (h : jumpEnding taken c g s = .commit e) : e.sparesQueues := by
  rcases jumpEnding_cases taken c g s with ⟨_, -, he⟩ | ⟨_, _, -, -, he⟩ | ⟨_, _, -, -, -, -, he⟩ |
    ⟨_, _, -, -, -, -, he⟩ | ⟨_, _, -, -, -, he⟩ <;> cases he.symm.trans h
  · exact ⟨rfl, rfl⟩
  · exact ⟨rfl, rfl⟩

theorem arbEnding_sparesQueues {d : Src} {s : State} {e : Effect} (h : arbEnding d s = .commit e) :
    e.sparesQueues := by
  rcases arbEnding_cases d s with ⟨-, he⟩ | ⟨_, -, -, he⟩ | ⟨_, -, -, -, he⟩ | ⟨_, -, -, -, he⟩ <;>
    cases he.symm.trans h
  exact ⟨rfl, rfl⟩

/-! IN and OUT. -/

/-- A committed IN has taken the front of the input and nothing else of the queues (R120). -/
theorem commit_queues_of_inpEnding {d : Dst} {s : State} {e : Effect} (h : inpEnding d s = .commit e) :
    (∃ v, s.inq = v :: (s.commit e).inq) ∧ (s.commit e).outq = s.outq := by
  rcases inpEnding_cases d s with ⟨_, -, he⟩ | ⟨_, -, -, he⟩ | ⟨_, v, q, -, hq, he⟩ <;> cases he.symm.trans h
  refine ⟨⟨v, ?_⟩, commit_outq_keep s _ rfl⟩
  rw [commit_inq_pop s _ rfl, hq, List.tail_cons]

/-- A committed OUT has appended its operand's value to the output and left the input (R121). -/
theorem commit_queues_of_outEnding {a : Src} {s : State} {e : Effect} (h : outEnding a s = .commit e) :
    (∃ x, s.val 1 a = .ok x ∧ (s.commit e).outq = s.outq ++ [x]) ∧ (s.commit e).inq = s.inq := by
  rcases outEnding_cases a s with ⟨_, -, he⟩ | ⟨x, hx, he⟩ <;> cases he.symm.trans h
  exact ⟨⟨x, hx, commit_outq_append s _ x rfl⟩, commit_inq_keep s _ rfl⟩

/-- Whatever the instruction, its effect leaves the queues as R122 says. HALT commits none. -/
theorem queuesAfter_commit {i : Instr} {s : State} {e : Effect} (h : ending i s = .commit e) :
    queuesAfter i s (s.commit e) := by
  cases i with
  | add | mul | lt | eq => exact commit_queues_of_sparesQueues s (aluEnding_sparesQueues h)
  | jt | jf => exact commit_queues_of_sparesQueues s (jumpEnding_sparesQueues h)
  | arb => exact commit_queues_of_sparesQueues s (arbEnding_sparesQueues h)
  | inp => exact commit_queues_of_inpEnding h
  | out => exact commit_queues_of_outEnding h
  | halt => cases h

/-! The host's pops (60_exceptions.md R189). -/

theorem popFront_of_outq_cons {s : State} {v : Int} {q : List Int} (h : s.outq = v :: q) :
    s.popFront = (some v, { s with outq := q }) := by
  rcases popFront_cases s with ⟨h0, -⟩ | ⟨_, _, hq, hp⟩
  · cases h0.symm.trans h
  · cases hq.symm.trans h
    exact hp

theorem popBack_of_outq_concat {s : State} {v : Int} {q : List Int} (h : s.outq = q ++ [v]) :
    s.popBack = (some v, { s with outq := q }) := by
  rcases popBack_cases s with ⟨h0, -⟩ | ⟨_, _, hq, hp⟩
  · simp [h0] at h
  · obtain ⟨rfl, ⟨⟩⟩ := List.append_inj' (hq.symm.trans h) rfl
    exact hp

/-- Settles O28: a step answers `ok` only by committing its effect, and each pop takes the end it names. -/
theorem queuesKeepTheirOrder : Obligations.QueuesKeepTheirOrder := by
  refine ⟨fun s t i hf h => ?_, fun _ _ _ => popFront_of_outq_cons, fun _ _ _ => popBack_of_outq_concat⟩
  obtain ⟨e, he, rfl⟩ := commit_of_hostStep_ok hf h
  exact queuesAfter_commit he

end Sys2Proof.Machine
end

section
/-! The relative base (44_relative_base.md R162). Changing the base commutes with a step: what is fetched, and every operand
that is not in Relative mode, is the same over either base, so an instruction without a Relative operand ends alike over
both, up to the base its effect carries. ARB's effect carries the sum, on the extended core, the only one that fetches it. -/

open Sys2Proof.Claims

namespace Sys2Proof

/-- Only the extended core has opcode 9 (00_scope.md R6, 44_relative_base.md R160). -/
theorem extended_of_decodeNat_arb {v : Variant} {n : Nat} {m : Mode} (h : decodeNat v n = .ok (.arb m)) :
    v = .extended := by
  unfold decodeNat at h
  split at h
  · next hop =>
    split at h
    case h_1 | h_2 | h_7 | h_8 =>
      obtain ⟨_, _, _, hf⟩ := decodeFRRW_ok h
      cases hf
    case h_3 =>
      obtain ⟨_, hf⟩ := decodeFW_ok h
      cases hf
    case h_4 =>
      obtain ⟨_, hf⟩ := decodeFR_ok h
      cases hf
    case h_5 | h_6 =>
      obtain ⟨_, _, hf⟩ := decodeFRR_ok h
      cases hf
    case h_9 hn =>
      rw [hn] at hop
      cases v with
      | narrow => exact absurd hop (by decide)
      | extended => rfl
    case h_10 => cases (decodeF0_ok h).2
    case h_11 => cases h
  · cases h

theorem extended_of_decodeWord_arb {v : Variant} {w : Int} {m : Mode} (h : decodeWord v w = .ok (.arb m)) :
    v = .extended := by
  unfold decodeWord at h
  split at h
  · cases h
  · exact extended_of_decodeNat_arb h

end Sys2Proof

namespace Sys2Proof.Machine

/-- ARB is fetched on the extended core only. -/
theorem extended_of_fetch_arb {s : State} {d : Src} (h : s.fetch = .instr (.arb d)) : s.cfg.variant = .extended := by
  obtain ⟨-, hpc, hd⟩ := fetch_instr h
  obtain ⟨cells, hwin⟩ := window_eq_cons hpc
  obtain ⟨rest, hdec⟩ := (decodeAtPc_eq_instr_iff ..).1 hd
  rw [hwin] at hdec
  obtain ⟨f, hw, hops⟩ := (decode_cons_eq_ok_iff ..).1 hdec
  rw [← form_of_takeOperands hops] at hw
  exact extended_of_decodeWord_arb hw

/-! The base changed in a state, in an effect and in an ending. -/

/-- The state with another relative base. -/
def State.withBase (s : State) (r : Int) : State := { s with rb := r }

@[simp] theorem withBase_inq (s : State) (r : Int) : (s.withBase r).inq = s.inq := rfl

/-- The ending with another relative base to commit. -/
def Ending.withBase (r : Int) : Ending → Ending
  | .commit e => .commit { e with rbNext := r }
  | .wait => .wait
  | .halt => .halt
  | .trap t => .trap t

/-- LATCH to OPERAND FETCH read the latch, `pc`, memory and the configuration, and not the base. -/
theorem fetch_withBase (s : State) (r : Int) : (s.withBase r).fetch = s.fetch := rfl

/-- Concluding an ending over another base gives the same state, with the base that the ending then carries. -/
theorem conclude_withBase (s : State) (r : Int) (e : Ending) :
    (s.withBase r).conclude (e.withBase r) = (s.conclude e).withBase r := by
  cases e <;> rfl

theorem statusOf_withBase (s : State) (r : Int) (e : Ending) :
    (s.withBase r).statusOf (e.withBase r) = s.statusOf e := by
  cases e <;> rfl

/-! Operands (20_memory.md R46 to R48). -/

theorem val_withBase {a : Src} (h : srcPlain a) (s : State) (k : Nat) (r : Int) :
    (s.withBase r).val k a = s.val k a := by
  cases a with
  | pos n => rfl
  | imm n => rfl
  | rel n => exact absurd rfl h

theorem loc_withBase {t : Dst} (h : dstPlain t) (s : State) (k : Nat) (r : Int) :
    (s.withBase r).loc k t = s.loc k t := by
  cases t with
  | pos n => rfl
  | rel n => exact absurd rfl h

/-! Endings. A stage that answers the same over both bases can be passed over: what matters is the stages after it. -/

theorem ofStages_bind_withBase {α : Type} {r : Int} (x : Except Trap α) {f g : α → Except Trap Ending}
    (h : ∀ a, Ending.ofStages (g a) = (Ending.ofStages (f a)).withBase r) :
    Ending.ofStages (x >>= g) = (Ending.ofStages (x >>= f)).withBase r := by
  cases x with
  | error t => rfl
  | ok a => exact h a

theorem aluEnding_withBase (f : Int → Int → Except Trap Int) {a b : Src} {t : Dst} (ha : srcPlain a) (hb : srcPlain b)
    (ht : dstPlain t) (s : State) (r : Int) :
    aluEnding f a b t (s.withBase r) = (aluEnding f a b t s).withBase r := by
  rw [aluEnding, val_withBase ha, val_withBase hb, loc_withBase ht]
  exact ofStages_bind_withBase _ fun x => ofStages_bind_withBase _ fun y => ofStages_bind_withBase _ fun _ =>
    ofStages_bind_withBase (f x y) fun _ => rfl

theorem inpEnding_withBase {t : Dst} (ht : dstPlain t) (s : State) (r : Int) :
    inpEnding t (s.withBase r) = (inpEnding t s).withBase r := by
  rw [inpEnding, loc_withBase ht, withBase_inq]
  refine ofStages_bind_withBase _ fun _ => ?_
  cases s.inq <;> rfl

theorem outEnding_withBase {a : Src} (ha : srcPlain a) (s : State) (r : Int) :
    outEnding a (s.withBase r) = (outEnding a s).withBase r := by
  rw [outEnding, val_withBase ha]
  exact ofStages_bind_withBase _ fun _ => rfl

theorem jumpEnding_withBase (taken : Int → Bool) {c g : Src} (hc : srcPlain c) (hg : srcPlain g) (s : State) (r : Int) :
    jumpEnding taken c g (s.withBase r) = (jumpEnding taken c g s).withBase r := by
  rw [jumpEnding, val_withBase hc, val_withBase hg]
  refine ofStages_bind_withBase _ fun x => ofStages_bind_withBase _ fun y => ?_
  cases taken x with
  | false => rfl
  | true =>
    simp only [jumpTo, if_true]
    split <;> rfl

/-- Every instruction without a Relative operand but ARB ends alike over either base, whose value it keeps. -/
theorem ending_withBase {i : Instr} (h : plain i) (harb : ∀ d, i ≠ .arb d) (s : State) (r : Int) :
    ending i (s.withBase r) = (ending i s).withBase r := by
  cases i with
  | add | mul | lt | eq =>
    obtain ⟨ha, hb, ht⟩ := h
    exact aluEnding_withBase _ ha hb ht s r
  | jt | jf =>
    obtain ⟨hc, hg⟩ := h
    exact jumpEnding_withBase _ hc hg s r
  | inp => exact inpEnding_withBase h s r
  | out => exact outEnding_withBase h s r
  | arb d => exact absurd rfl (harb d)
  | halt => rfl

/-- A completed ARB commits the sum of the base and its operand (R160). -/
theorem arbEnding_eq_commit {s : State} {d : Src} {x : Int} (hv : s.cfg.variant = .extended) (hd : s.val 1 d = .ok x)
    (hfit : s.cfg.variant.fits (s.rb + x)) :
    arbEnding d s = .commit { s.advance 2 with rbNext := s.rb + x } := by
  rcases arbEnding_cases d s with ⟨hn, -⟩ | ⟨_, -, he, -⟩ | ⟨y, -, hy, hbig, -⟩ | ⟨y, -, hy, -, he⟩
  · cases hn.symm.trans hv
  · cases he.symm.trans hd
  · cases hy.symm.trans hd
    exact absurd hfit hbig
  · cases hy.symm.trans hd
    exact he

/-! Steps. -/

/-- A step that fetches an instruction concludes its ending and reports how it ended (40_pipeline.md R90). -/
theorem hostStep_of_fetch_instr {s : State} {i : Instr} (h : s.fetch = .instr i) :
    hostStep s = (s.conclude (ending i s), s.statusOf (ending i s)) := by
  rw [hostStep, h]

theorem hostStep_withBase {s : State} {i : Instr} (hf : s.fetch = .instr i) (h : plain i) (harb : ∀ d, i ≠ .arb d)
    (r : Int) : hostStep (s.withBase r) = ((hostStep s).1.withBase r, (hostStep s).2) := by
  have hf' : (s.withBase r).fetch = .instr i := (fetch_withBase s r).trans hf
  rw [hostStep_of_fetch_instr hf', hostStep_of_fetch_instr hf, ending_withBase h harb, conclude_withBase,
    statusOf_withBase]

/-- A completed ARB changes the base and `pc` only. -/
theorem hostStep_arb {s : State} {d : Src} {x : Int} (hf : s.fetch = .instr (.arb d)) (hd : s.val 1 d = .ok x)
    (hfit : s.cfg.variant.fits (s.rb + x)) :
    hostStep s = (s.commit { s.advance 2 with rbNext := s.rb + x }, .ok) := by
  rw [hostStep_of_fetch_instr hf, ending, arbEnding_eq_commit (extended_of_fetch_arb hf) hd hfit, conclude_commit,
    statusOf_commit]

theorem hostStep_arb_withBase {s : State} {d : Src} {r x : Int} (hf : s.fetch = .instr (.arb d)) (h : srcPlain d)
    (hd : s.val 1 d = .ok x) (hfit : s.cfg.variant.fits (s.rb + x)) (hfit' : s.cfg.variant.fits (r + x)) :
    hostStep (s.withBase r) = ((hostStep s).1.withBase (r + x), .ok) := by
  have hf' : (s.withBase r).fetch = .instr (.arb d) := (fetch_withBase s r).trans hf
  have hd' : (s.withBase r).val 1 d = .ok x := (val_withBase h s 1 r).trans hd
  rw [hostStep_arb hf' hd' hfit', hostStep_arb hf hd hfit]
  rfl

/-- Settles O27: a Relative operand is the Position operand at its sum with the base, and a change of the base commutes
with fetching and with every step that has no Relative operand; after ARB the bases differ as before. -/
theorem relativeBaseOnlyMovesRelativeOperands : Obligations.RelativeBaseOnlyMovesRelativeOperands := by
  refine ⟨fun s k o hv => ⟨?_, ?_⟩, fetch_withBase, fun s r i hf h harb => hostStep_withBase hf h harb r,
    fun s r x d => hostStep_arb_withBase⟩
  · rw [val_rel_extended k o hv, val_pos]
  · rw [loc_rel_extended k o hv, loc_pos]

end Sys2Proof.Machine
end

section
/-! Reset (70_reset_and_hazards.md R202). A step whose cells at `pc` decode runs the decoded instruction, and a constructed
instance has no error latched and its `pc` at 0. -/

open Sys2Proof.Claims

namespace Sys2Proof.Machine

theorem step_of_fetch_instr {s : State} {i : Instr} (h : s.fetch = .instr i) : step s = exec i s := by
  rw [step, h]

/-- The stages before RESOLVE add nothing where the cells at `pc` decode (40_pipeline.md R81 to R84). -/
theorem fetch_instr_of_decode {s : State} {i : Instr} {rest : List Int} (h : ready s)
    (hd : decode s.cfg.variant s.window = .ok (i, rest)) : s.fetch = .instr i := by
  obtain ⟨herr, hpc⟩ := h
  rw [fetch_inside herr hpc]
  exact (decodeAtPc_eq_instr_iff s i).2 ⟨rest, hd⟩

/-- A state built from an image is ready to step as soon as it has a cell: its `pc` is 0 (R202). -/
theorem ready_ofImage {v : Variant} {image input : List Int} {capacity : Nat}
    (h : 0 < (State.ofImage v image input capacity).cfg.memSize) : ready (State.ofImage v image input capacity) :=
  ⟨ofImage_err v image input capacity, h⟩

/-- Settles O55: a construction answers the state of its image, whose `pc` is 0, so its first step runs what decodes
there. -/
theorem executionStartsAtCellZero : Obligations.ExecutionStartsAtCellZero := by
  intro v text input capacity s i rest hs
  obtain ⟨image, -, -, rfl⟩ := construct_ok hs
  refine ⟨ofImage_pc v image input capacity, fun hsize hd => ?_⟩
  exact step_of_fetch_instr (fetch_instr_of_decode (ready_ofImage hsize) hd)

end Sys2Proof.Machine
end

section
/-! The decoder and the encoder (30_encoding.md R60 to R75). The decoder answers a form exactly for that form's own
word, where the form is legal in the variant: an `↔` a format at a time, then one for every word. -/

open Sys2Proof.Claims

namespace Sys2Proof

/-! The legal forms of a variant (30_encoding.md R63, R67). -/

/-- The modes a read operand may have. -/
def Variant.srcModes : Variant → List Mode
  | .narrow => [.position, .immediate]
  | .extended => [.position, .immediate, .relative]

/-- The modes a write operand may have. -/
def Variant.dstModes : Variant → List TargetMode
  | .narrow => [.position]
  | .extended => [.position, .relative]

/-- The form is one of the variant: its modes are, and ARB is of the extended variant only. -/
def Form.legal (v : Variant) : Form → Prop
  | .add m1 m2 m3 | .mul m1 m2 m3 | .lt m1 m2 m3 | .eq m1 m2 m3 => m1 ∈ v.srcModes ∧ m2 ∈ v.srcModes ∧ m3 ∈ v.dstModes
  | .inp m1 => m1 ∈ v.dstModes
  | .out m1 => m1 ∈ v.srcModes
  | .jt m1 m2 | .jf m1 m2 => m1 ∈ v.srcModes ∧ m2 ∈ v.srcModes
  | .arb m1 => v = .extended ∧ m1 ∈ v.srcModes
  | .halt => True

theorem mem_srcModes_iff (v : Variant) (m : Mode) : m ∈ v.srcModes ↔ m.toDigit ∈ v.modes := by
  cases v <;> cases m <;> decide

theorem mem_dstModes_iff (v : Variant) (m : TargetMode) : m ∈ v.dstModes ↔ m.toDigit ∈ v.modes := by
  cases v <;> cases m <;> decide

theorem Src.mode_mem_of_wf {v : Variant} {a : Src} (h : a.wf v = true) : a.mode ∈ v.srcModes := by
  cases a with
  | pos | imm => cases v <;> simp [Src.mode, Variant.srcModes]
  | rel =>
    simp only [Src.wf, Bool.and_eq_true, decide_eq_true_eq] at h
    simp [h.1, Src.mode, Variant.srcModes]

theorem Dst.mode_mem_of_wf {v : Variant} {t : Dst} (h : t.wf v = true) : t.mode ∈ v.dstModes := by
  cases t with
  | pos => cases v <;> simp [Dst.mode, Variant.dstModes]
  | rel =>
    simp only [Dst.wf, Bool.and_eq_true, decide_eq_true_eq] at h
    simp [h.1, Dst.mode, Variant.dstModes]

theorem Instr.form_legal_of_wf {v : Variant} {i : Instr} (h : i.wf v = true) : i.form.legal v := by
  cases i with
  | add | mul | lt | eq =>
    simp only [Instr.wf, Bool.and_eq_true] at h
    obtain ⟨⟨ha, hb⟩, ht⟩ := h
    exact ⟨Src.mode_mem_of_wf ha, Src.mode_mem_of_wf hb, Dst.mode_mem_of_wf ht⟩
  | jt | jf =>
    simp only [Instr.wf, Bool.and_eq_true] at h
    exact ⟨Src.mode_mem_of_wf h.1, Src.mode_mem_of_wf h.2⟩
  | inp => exact Dst.mode_mem_of_wf h
  | out => exact Src.mode_mem_of_wf h
  | arb =>
    simp only [Instr.wf, Bool.and_eq_true, decide_eq_true_eq] at h
    exact ⟨h.1, Src.mode_mem_of_wf h.2⟩
  | halt => trivial

/-! The decoder's checks (40_pipeline.md R83). -/

theorem decodeMode_eq_ok_iff (v : Variant) (n k : Nat) (m : Mode) :
    decodeMode v n k = .ok m ↔ m ∈ v.srcModes ∧ digit n (k + 1) = m.toDigit := by
  rw [mem_srcModes_iff]
  rcases decodeMode_cases v n k with ⟨hd, h⟩ | ⟨hd, h⟩
  · rw [h, Except.ok.injEq]
    constructor
    · rintro rfl
      rw [Mode.toDigit_ofDigit hd]
      exact ⟨hd, rfl⟩
    · rintro ⟨-, hm⟩
      rw [hm, Mode.ofDigit_toDigit]
  · simp only [h, reduceCtorEq, false_iff]
    rintro ⟨hm, he⟩
    exact hd (he ▸ hm)

theorem decodeNoExcess_eq_ok_iff (n k : Nat) (u : Unit) : decodeNoExcess n k = .ok u ↔ n / 100 < 10 ^ k := by
  rcases decodeNoExcess_cases n k with ⟨hlt, h⟩ | ⟨hle, h⟩
  · simp [h, hlt]
  · simp [h, hle]

theorem decodeTarget_eq_ok_iff (n k : Nat) (m : Mode) (t : TargetMode) :
    decodeTarget n k m = .ok t ↔ m.toDigit = t.toDigit := by
  cases m <;> cases t <;> simp [decodeTarget, Mode.toDigit, TargetMode.toDigit]

/-- The mode digits are those of the word without its opcode (R63). -/
theorem digit_add_two (n k : Nat) : digit n (k + 2) = n / 100 / 10 ^ k % 10 := by
  rw [digit, Nat.div_div_eq_div_mul, Nat.pow_add, Nat.mul_comm]

/-! The formats (30_encoding.md R65): what stands before the opcode is the mode digits and nothing more. -/

section
variable (v : Variant) (n : Nat) (g : Form)

theorem decodeF0_eq_ok_iff (f : Form) : decodeF0 n f = .ok g ↔ g = f ∧ n / 100 = 0 := by
  simp only [decodeF0, except_bind_eq_ok, decodeNoExcess_eq_ok_iff]
  simp [pure, Except.pure, eq_comm, and_comm]

theorem decodeFR_eq_ok_iff (f : Mode → Form) :
    decodeFR v n f = .ok g ↔ ∃ m1, g = f m1 ∧ m1 ∈ v.srcModes ∧ n / 100 = m1.toDigit := by
  simp only [decodeFR, except_bind_eq_ok, decodeMode_eq_ok_iff, decodeNoExcess_eq_ok_iff, digit_add_two]
  constructor
  · rintro ⟨m1, ⟨h1, d1⟩, -, hlt, ⟨⟩⟩
    exact ⟨m1, rfl, h1, by omega⟩
  · rintro ⟨m1, rfl, h1, hn⟩
    have := m1.toDigit_le
    exact ⟨m1, ⟨h1, by omega⟩, (), by omega, rfl⟩

theorem decodeFW_eq_ok_iff (f : TargetMode → Form) :
    decodeFW v n f = .ok g ↔ ∃ t1, g = f t1 ∧ t1 ∈ v.dstModes ∧ n / 100 = t1.toDigit := by
  simp only [decodeFW, except_bind_eq_ok, decodeMode_eq_ok_iff, decodeNoExcess_eq_ok_iff, decodeTarget_eq_ok_iff,
    digit_add_two, mem_srcModes_iff, mem_dstModes_iff]
  constructor
  · rintro ⟨m1, ⟨h1, d1⟩, -, hlt, t1, ht, ⟨⟩⟩
    exact ⟨t1, rfl, ht ▸ h1, by omega⟩
  · rintro ⟨t1, rfl, h1, hn⟩
    have := t1.toDigit_le
    exact ⟨Mode.ofDigit t1.toDigit, ⟨by rwa [Mode.toDigit_ofDigit h1], by rw [Mode.toDigit_ofDigit h1]; omega⟩, (),
      by omega, t1, Mode.toDigit_ofDigit h1, rfl⟩

theorem decodeFRR_eq_ok_iff (f : Mode → Mode → Form) :
    decodeFRR v n f = .ok g ↔ ∃ m1 m2, g = f m1 m2 ∧ m1 ∈ v.srcModes ∧ m2 ∈ v.srcModes ∧
      n / 100 = m1.toDigit + 10 * m2.toDigit := by
  simp only [decodeFRR, except_bind_eq_ok, decodeMode_eq_ok_iff, decodeNoExcess_eq_ok_iff, digit_add_two]
  constructor
  · rintro ⟨m1, ⟨h1, d1⟩, m2, ⟨h2, d2⟩, -, hlt, ⟨⟩⟩
    exact ⟨m1, m2, rfl, h1, h2, by omega⟩
  · rintro ⟨m1, m2, rfl, h1, h2, hn⟩
    have := m1.toDigit_le
    have := m2.toDigit_le
    exact ⟨m1, ⟨h1, by omega⟩, m2, ⟨h2, by omega⟩, (), by omega, rfl⟩

theorem decodeFRRW_eq_ok_iff (f : Mode → Mode → TargetMode → Form) :
    decodeFRRW v n f = .ok g ↔ ∃ m1 m2 t3, g = f m1 m2 t3 ∧ (m1 ∈ v.srcModes ∧ m2 ∈ v.srcModes ∧ t3 ∈ v.dstModes) ∧
      n / 100 = m1.toDigit + 10 * m2.toDigit + 100 * t3.toDigit := by
  simp only [decodeFRRW, except_bind_eq_ok, decodeMode_eq_ok_iff, decodeNoExcess_eq_ok_iff, decodeTarget_eq_ok_iff,
    digit_add_two, mem_srcModes_iff, mem_dstModes_iff]
  constructor
  · rintro ⟨m1, ⟨h1, d1⟩, m2, ⟨h2, d2⟩, m3, ⟨h3, d3⟩, -, hlt, t3, ht, ⟨⟩⟩
    exact ⟨m1, m2, t3, rfl, ⟨h1, h2, ht ▸ h3⟩, by omega⟩
  · rintro ⟨m1, m2, t3, rfl, ⟨h1, h2, h3⟩, hn⟩
    have := m1.toDigit_le
    have := m2.toDigit_le
    have := t3.toDigit_le
    have hd := Mode.toDigit_ofDigit h3
    exact ⟨m1, ⟨h1, by omega⟩, m2, ⟨h2, by omega⟩, Mode.ofDigit t3.toDigit, ⟨by rwa [hd], by rw [hd]; omega⟩, (),
      by omega, t3, hd, rfl⟩

end

/-! The whole word: its opcode, and what stands before it (30_encoding.md R61, R63, R75). -/

/-- The opcode of a form's row (R67). -/
def Form.opcode : Form → Nat
  | .add _ _ _ => 1
  | .mul _ _ _ => 2
  | .inp _ => 3
  | .out _ => 4
  | .jt _ _ => 5
  | .jf _ _ => 6
  | .lt _ _ _ => 7
  | .eq _ _ _ => 8
  | .arb _ => 9
  | .halt => 99

/-- The mode digits of a form, read as one number. -/
def Form.modeDigits : Form → Nat
  | .add m1 m2 m3 | .mul m1 m2 m3 | .lt m1 m2 m3 | .eq m1 m2 m3 => m1.toDigit + 10 * m2.toDigit + 100 * m3.toDigit
  | .inp m1 => m1.toDigit
  | .out m1 | .arb m1 => m1.toDigit
  | .jt m1 m2 | .jf m1 m2 => m1.toDigit + 10 * m2.toDigit
  | .halt => 0

theorem Form.word_eq (f : Form) : f.word = f.opcode + 100 * f.modeDigits := by
  cases f <;> simp only [Form.word, Form.opcode, Form.modeDigits] <;> omega

theorem Form.opcode_lt (f : Form) : f.opcode < 100 := by
  cases f <;> simp [Form.opcode]

theorem Form.word_mod (f : Form) : f.word % 100 = f.opcode := by
  have := f.opcode_lt
  rw [f.word_eq]; omega

theorem Form.word_div (f : Form) : f.word / 100 = f.modeDigits := by
  have := f.opcode_lt
  rw [f.word_eq]; omega

theorem Form.opcode_mem {v : Variant} {f : Form} (h : f.legal v) : f.opcode ∈ v.opcodes := by
  cases f with
  | arb => simp [h.1, Form.opcode, Variant.opcodes]
  | _ => cases v <;> simp [Form.opcode, Variant.opcodes]

/-- Decode of encode, on the word alone. -/
theorem decodeNat_word {v : Variant} {f : Form} (h : f.legal v) : decodeNat v f.word = .ok f := by
  rw [decodeNat, f.word_mod, if_pos (Form.opcode_mem h)]
  have hdiv := f.word_div
  cases f with
  | add | mul | lt | eq => exact (decodeFRRW_eq_ok_iff ..).2 ⟨_, _, _, rfl, h, hdiv⟩
  | jt | jf => exact (decodeFRR_eq_ok_iff ..).2 ⟨_, _, rfl, h.1, h.2, hdiv⟩
  | inp => exact (decodeFW_eq_ok_iff ..).2 ⟨_, rfl, h, hdiv⟩
  | out => exact (decodeFR_eq_ok_iff ..).2 ⟨_, rfl, h, hdiv⟩
  | arb => exact (decodeFR_eq_ok_iff ..).2 ⟨_, rfl, h.2, hdiv⟩
  | halt => exact (decodeF0_eq_ok_iff ..).2 ⟨rfl, hdiv⟩

/-- What the decoder answers is a legal form, with the opcode and the digits the word has. -/
theorem legal_of_decodeNat {v : Variant} {n : Nat} {f : Form} (h : decodeNat v n = .ok f) :
    f.legal v ∧ n % 100 = f.opcode ∧ n / 100 = f.modeDigits := by
  unfold decodeNat at h
  split at h
  case isFalse => cases h
  case isTrue hop =>
    split at h
    case h_1 e | h_2 e | h_7 e | h_8 e =>
      obtain ⟨_, _, _, rfl, hl, hn⟩ := (decodeFRRW_eq_ok_iff ..).1 h
      exact ⟨hl, e, hn⟩
    case h_3 e =>
      obtain ⟨_, rfl, hl, hn⟩ := (decodeFW_eq_ok_iff ..).1 h
      exact ⟨hl, e, hn⟩
    case h_4 e =>
      obtain ⟨_, rfl, hl, hn⟩ := (decodeFR_eq_ok_iff ..).1 h
      exact ⟨hl, e, hn⟩
    case h_5 e | h_6 e =>
      obtain ⟨_, _, rfl, h1, h2, hn⟩ := (decodeFRR_eq_ok_iff ..).1 h
      exact ⟨⟨h1, h2⟩, e, hn⟩
    case h_9 e =>
      obtain ⟨_, rfl, hl, hn⟩ := (decodeFR_eq_ok_iff ..).1 h
      refine ⟨⟨?_, hl⟩, e, hn⟩
      cases v with
      | narrow => exact absurd (e ▸ hop) (by decide)
      | extended => rfl
    case h_10 e =>
      obtain ⟨rfl, hn⟩ := (decodeF0_eq_ok_iff ..).1 h
      exact ⟨trivial, e, hn⟩
    case h_11 => cases h

theorem decodeNat_eq_ok_iff (v : Variant) (n : Nat) (f : Form) :
    decodeNat v n = .ok f ↔ f.legal v ∧ n = f.word := by
  constructor
  · intro h
    obtain ⟨hl, hmod, hdiv⟩ := legal_of_decodeNat h
    exact ⟨hl, by rw [f.word_eq]; omega⟩
  · rintro ⟨hl, rfl⟩
    exact decodeNat_word hl

/-- A word decodes to a form exactly where it is that form's word and the form is legal (30_encoding.md R61 to R75). -/
theorem decodeWord_eq_ok_iff (v : Variant) (w : Int) (f : Form) :
    decodeWord v w = .ok f ↔ f.legal v ∧ w = (f.word : Int) := by
  rcases Int.lt_or_le w 0 with hneg | hpos
  · simp only [decodeWord, if_pos hneg, reduceCtorEq, false_iff]
    omega
  · obtain ⟨n, rfl⟩ := Int.eq_ofNat_of_zero_le hpos
    rw [decodeWord_natCast, decodeNat_eq_ok_iff, Int.natCast_inj]

/-- Settles O1: the word of a well-formed instruction decodes to its form, which takes back its operand words. -/
theorem decodeOfEncodeIsTheInstruction : Obligations.DecodeOfEncodeIsTheInstruction := by
  intro v i rest hwf
  have hw : decodeWord v (encodeWord i) = .ok i.form := (decodeWord_eq_ok_iff ..).2 ⟨Instr.form_legal_of_wf hwf, rfl⟩
  exact (decode_cons_eq_ok_iff ..).2 ⟨i.form, hw, takeOperands_operandWords i rest⟩

/-- Settles O2: it is one half of the decoder's `↔`. -/
theorem decodedWordIsItsEncoding : Obligations.DecodedWordIsItsEncoding := by
  intro v w f h
  exact ((decodeWord_eq_ok_iff v w f).1 h).2

/-! The opcode table (30_encoding.md R67, opcode_table.json). -/

/-- The forms of an operation in format FRRW, in the table's order. -/
def frrwForms (v : Variant) (f : Mode → Mode → TargetMode → Form) : List Form :=
  v.dstModes.flatMap fun m3 => v.srcModes.flatMap fun m2 => v.srcModes.map fun m1 => f m1 m2 m3

/-- The forms of an operation in format FRR, in the table's order. -/
def frrForms (v : Variant) (f : Mode → Mode → Form) : List Form :=
  v.srcModes.flatMap fun m2 => v.srcModes.map fun m1 => f m1 m2

/-- The forms of ARB: none on NARROW. -/
def arbForms : Variant → List Form
  | .narrow => []
  | .extended => Variant.extended.srcModes.map .arb

/-- The legal forms of a variant, row by row. -/
def legalForms (v : Variant) : List Form :=
  frrwForms v .add ++ frrwForms v .mul ++ v.dstModes.map .inp ++ v.srcModes.map .out ++ frrForms v .jt ++
    frrForms v .jf ++ frrwForms v .lt ++ frrwForms v .eq ++ arbForms v ++ [.halt]

theorem mem_frrwForms (v : Variant) (f : Mode → Mode → TargetMode → Form) (g : Form) :
    g ∈ frrwForms v f ↔ ∃ m1 m2 m3, (m1 ∈ v.srcModes ∧ m2 ∈ v.srcModes ∧ m3 ∈ v.dstModes) ∧ f m1 m2 m3 = g := by
  simp only [frrwForms, List.mem_flatMap, List.mem_map]
  constructor
  · rintro ⟨m3, h3, m2, h2, m1, h1, h⟩
    exact ⟨m1, m2, m3, ⟨h1, h2, h3⟩, h⟩
  · rintro ⟨m1, m2, m3, ⟨h1, h2, h3⟩, h⟩
    exact ⟨m3, h3, m2, h2, m1, h1, h⟩

theorem mem_frrForms (v : Variant) (f : Mode → Mode → Form) (g : Form) :
    g ∈ frrForms v f ↔ ∃ m1 m2, (m1 ∈ v.srcModes ∧ m2 ∈ v.srcModes) ∧ f m1 m2 = g := by
  simp only [frrForms, List.mem_flatMap, List.mem_map]
  constructor
  · rintro ⟨m2, h2, m1, h1, h⟩
    exact ⟨m1, m2, ⟨h1, h2⟩, h⟩
  · rintro ⟨m1, m2, ⟨h1, h2⟩, h⟩
    exact ⟨m2, h2, m1, h1, h⟩

theorem mem_arbForms (v : Variant) (g : Form) :
    g ∈ arbForms v ↔ v = .extended ∧ ∃ m1, m1 ∈ v.srcModes ∧ Form.arb m1 = g := by
  cases v <;> simp [arbForms]

theorem mem_legalForms (v : Variant) (f : Form) : f ∈ legalForms v ↔ f.legal v := by
  simp only [legalForms, List.mem_append, mem_frrwForms, mem_frrForms, mem_arbForms, List.mem_map, List.mem_singleton]
  cases f <;> simp [Form.legal]

/-- The table's words are the words of the legal forms, in the same order. -/
theorem tableWords_eq (v : Variant) : tableWords v = (legalForms v).map fun f => (f.word : Int) := by
  cases v <;> rfl

/-- Settles O3: the words that decode are the words of the legal forms, and the tables list these. -/
theorem legalWordsAreTheTables : Obligations.LegalWordsAreTheTables := by
  refine ⟨fun v w => ?_, by decide, by decide, by decide, by decide⟩
  simp only [decodeWord_eq_ok_iff, tableWords_eq, List.mem_map, mem_legalForms, eq_comm (a := w)]

/-- Settles O4: each word is computed. -/
theorem sampleWordsDecode : Obligations.SampleWordsDecode := by
  unfold Obligations.SampleWordsDecode
  decide

/-! What the decoder raises after the mode digits (40_pipeline.md R83 steps 4 and 5). -/

theorem decodeNoExcess_bind_excess {α : Type} {n k : Nat} (f : Unit → Except Trap α) (h : 10 ^ k ≤ n / 100) :
    decodeNoExcess n k >>= f = .error ⟨.unknownMode, 0, n⟩ := by
  rw [decodeNoExcess, if_neg (Nat.not_lt.2 h)]; rfl

theorem decodeNoExcess_bind_fits {α : Type} {n k : Nat} (f : Unit → Except Trap α) (h : n / 100 < 10 ^ k) :
    decodeNoExcess n k >>= f = f () := by
  rw [decodeNoExcess, if_pos h]; rfl

section
variable {v : Variant} {n : Nat}

theorem decodeF0_excess (f : Form) (hx : 10 ^ 0 ≤ n / 100) : decodeF0 n f = .error ⟨.unknownMode, 0, n⟩ :=
  decodeNoExcess_bind_excess _ hx

theorem decodeFR_excess (f : Mode → Form) (hl : digitsLegal v n 1) (hx : 10 ^ 1 ≤ n / 100) :
    decodeFR v n f = .error ⟨.unknownMode, 0, n⟩ := by
  rw [decodeFR, decodeMode_bind_legal _ (hl 1 (by omega) (by omega)), decodeNoExcess_bind_excess _ hx]

theorem decodeFW_excess (f : TargetMode → Form) (hl : digitsLegal v n 1) (hx : 10 ^ 1 ≤ n / 100) :
    decodeFW v n f = .error ⟨.unknownMode, 0, n⟩ := by
  rw [decodeFW, decodeMode_bind_legal _ (hl 1 (by omega) (by omega)), decodeNoExcess_bind_excess _ hx]

theorem decodeFRR_excess (f : Mode → Mode → Form) (hl : digitsLegal v n 2) (hx : 10 ^ 2 ≤ n / 100) :
    decodeFRR v n f = .error ⟨.unknownMode, 0, n⟩ := by
  rw [decodeFRR, decodeMode_bind_legal _ (hl 1 (by omega) (by omega)),
    decodeMode_bind_legal _ (hl 2 (by omega) (by omega)), decodeNoExcess_bind_excess _ hx]

theorem decodeFRRW_excess (f : Mode → Mode → TargetMode → Form) (hl : digitsLegal v n 3) (hx : 10 ^ 3 ≤ n / 100) :
    decodeFRRW v n f = .error ⟨.unknownMode, 0, n⟩ := by
  rw [decodeFRRW, decodeMode_bind_legal _ (hl 1 (by omega) (by omega)),
    decodeMode_bind_legal _ (hl 2 (by omega) (by omega)), decodeMode_bind_legal _ (hl 3 (by omega) (by omega)),
    decodeNoExcess_bind_excess _ hx]

/-- A digit beyond the operands is reported after the operands' digits (R64). -/
theorem decodeNat_excess (hop : n % 100 ∈ v.opcodes) (hl : digitsLegal v n (operandCount (n % 100)))
    (hx : 10 ^ operandCount (n % 100) ≤ n / 100) : decodeNat v n = .error ⟨.unknownMode, 0, n⟩ := by
  rw [decodeNat, if_pos hop]
  split
  case h_1 e | h_2 e | h_7 e | h_8 e => rw [e] at hl hx; exact decodeFRRW_excess _ hl hx
  case h_3 e => rw [e] at hl hx; exact decodeFW_excess _ hl hx
  case h_4 e | h_9 e => rw [e] at hl hx; exact decodeFR_excess _ hl hx
  case h_5 e | h_6 e => rw [e] at hl hx; exact decodeFRR_excess _ hl hx
  case h_10 e => rw [e] at hx; exact decodeF0_excess _ hx
  case h_11 =>
    -- The arms before this one take every opcode of either variant.
    cases v <;> simp_all [Variant.opcodes]

theorem decodeFW_immediate (f : TargetMode → Form) (hl : digitsLegal v n 1) (hx : n / 100 < 10 ^ 1)
    (ht : digit n 2 = 1) : decodeFW v n f = .error ⟨.immediateWrite, 1, n⟩ := by
  rw [decodeFW, decodeMode_bind_legal _ (hl 1 (by omega) (by omega)), decodeNoExcess_bind_fits _ hx, ht]
  rfl

theorem decodeFRRW_immediate (f : Mode → Mode → TargetMode → Form) (hl : digitsLegal v n 3) (hx : n / 100 < 10 ^ 3)
    (ht : digit n 4 = 1) : decodeFRRW v n f = .error ⟨.immediateWrite, 3, n⟩ := by
  rw [decodeFRRW, decodeMode_bind_legal _ (hl 1 (by omega) (by omega)),
    decodeMode_bind_legal _ (hl 2 (by omega) (by omega)), decodeMode_bind_legal _ (hl 3 (by omega) (by omega)),
    decodeNoExcess_bind_fits _ hx, ht]
  rfl

theorem opcodes_of_writes (v : Variant) : ∀ k ∈ writes, k ∈ v.opcodes := by
  cases v <;> decide

/-- An Immediate write target is reported last: every digit is legal by then (R69). -/
theorem decodeNat_immediate (hop : n % 100 ∈ writes) (hl : digitsLegal v n (operandCount (n % 100)))
    (hx : n / 100 < 10 ^ operandCount (n % 100)) (ht : digit n (operandCount (n % 100) + 1) = 1) :
    decodeNat v n = .error ⟨.immediateWrite, operandCount (n % 100), n⟩ := by
  rw [decodeNat, if_pos (opcodes_of_writes v _ hop)]
  split
  case h_1 e | h_2 e | h_7 e | h_8 e => rw [e] at hl hx ht ⊢; exact decodeFRRW_immediate _ hl hx ht
  case h_3 e => rw [e] at hl hx ht ⊢; exact decodeFW_immediate _ hl hx ht
  case h_4 e | h_5 e | h_6 e | h_9 e | h_10 e => exact absurd (e ▸ hop) (by decide)
  case h_11 => simp_all [writes]

end

end Sys2Proof

namespace Sys2Proof.Machine

/-- Settles O6: the sign is the decoder's first check. -/
theorem negativeWordRaisesUnknownOpcode : Obligations.NegativeWordRaisesUnknownOpcode := by
  rintro s _ h rfl hneg
  exact hostStep_raised_of_decodeWord h (if_pos hneg)

/-- Settles O7: the decoder raises it, and the step raises what the decoder does. -/
theorem excessDigitsRaiseUnknownMode : Obligations.ExcessDigitsRaiseUnknownMode := by
  intro s n h hn hop hl hx
  exact hostStep_raised_of_decodeNat h hn (decodeNat_excess hop hl hx)

/-- Settles O8: the decoder raises it, so no operand has been resolved. -/
theorem immediateTargetRaises : Obligations.ImmediateTargetRaises := by
  intro s n h hn hop hl hx ht
  exact hostStep_raised_of_decodeNat h hn (decodeNat_immediate hop hl hx ht)

end Sys2Proof.Machine
end

section
/-! What each instruction does (41_alu.md to 44_relative_base.md). First the resolver and the range checks, then a
rule a format at a time: an `↔` for the effect it commits, and the order in which its errors come (40_pipeline.md R85
to R88). Every statement about an instruction is one of these rules, concluded. -/

open Sys2Proof.Claims

namespace Sys2Proof.Machine

/-! The resolver (20_memory.md R45 to R49). -/

theorem checkAddr_natCast {s : State} {a : Nat} (k : Nat) (h : a < s.cfg.memSize) : s.checkAddr k a = .ok a := by
  rw [State.checkAddr, if_pos (by omega), Int.toNat_natCast]

theorem checkAddr_outside {s : State} {a : Int} (k : Nat) (h : a < 0 ∨ (s.cfg.memSize : Int) ≤ a) :
    s.checkAddr k a = .error ⟨.invalidAddress, k, a⟩ := if_neg (by omega)

@[simp] theorem readAt_ok (s : State) (a : Nat) : s.readAt (.ok a) = .ok (s.readCell a) := rfl

@[simp] theorem readAt_error (s : State) (t : Trap) : s.readAt (.error t) = .error t := rfl

/-- Settles O46: in each mode the address passes the range check. -/
theorem operandsResolveByMode : Obligations.OperandsResolveByMode := by
  intro s k a n ha
  have hok := checkAddr_natCast k ha
  refine ⟨val_imm s k n, ?_, hok, fun hv hsum => ⟨?_, ?_⟩⟩
  · rw [val_pos, hok, readAt_ok]
  · rw [val_rel_extended k n hv, hsum, hok, readAt_ok]
  · rw [loc_rel_extended k n hv, hsum, hok]

/-- Settles O47: reads and writes share the range check. -/
theorem addressesOutsideMemoryRaise : Obligations.AddressesOutsideMemoryRaise := by
  refine fun s k n => ⟨fun h => ⟨?_, checkAddr_outside k h⟩, fun hv h => ⟨?_, ?_⟩⟩
  · rw [val_pos, checkAddr_outside k h, readAt_error]
  · rw [val_rel_extended k n hv, checkAddr_outside k h, readAt_error]
  · rw [loc_rel_extended k n hv, checkAddr_outside k h]

/-- Settles O48: at base 0 the exact sum is the operand word. -/
theorem positionAndRelativeAgreeAtBaseZero : Obligations.PositionAndRelativeAgreeAtBaseZero := by
  intro s k n hv hrb
  rw [val_rel_extended k n hv, loc_rel_extended k n hv, hrb, Int.zero_add]
  exact ⟨rfl, rfl⟩

/-- Settles O49 by the memory laws. -/
theorem readAfterWrite : Obligations.ReadAfterWrite :=
  fun m a b v h => ⟨Memory.wf_write a v h, m.read_write a b v⟩

/-! The fit check (41_alu.md R104) and the values a comparison writes (R102, R103). -/

theorem checkFits_of_fits {s : State} {r : Int} (k : Nat) (h : s.cfg.variant.fits r) : s.checkFits k r = .ok r :=
  if_pos h

theorem checkFits_of_not_fits {s : State} {r : Int} (k : Nat) (h : ¬ s.cfg.variant.fits r) :
    s.checkFits k r = .error ⟨.arithmeticOverflow, k, r⟩ := if_neg h

theorem lessThan_eq (x y : Int) : lessThan x y = if x < y then 1 else 0 := by
  simp [lessThan, truthValue]

theorem equalTo_eq (x y : Int) : equalTo x y = if x = y then 1 else 0 := by
  simp [equalTo, truthValue]

@[simp] theorem truthy_eq_true_iff (x : Int) : truthy x = true ↔ x ≠ 0 := by simp [truthy]

@[simp] theorem truthy_eq_false_iff (x : Int) : truthy x = false ↔ x = 0 := by simp [truthy]

/-! The effect each format commits (40_pipeline.md R87). -/

section
variable {s : State} {e : Effect}

/-- FRRW commits one write of its function's result, where all three operands resolve. -/
theorem aluEnding_eq_commit_iff {f : Int → Int → Except Trap Int} {a b : Src} {t : Dst} :
    aluEnding f a b t s = .commit e ↔ ∃ x y l r, s.val 1 a = .ok x ∧ s.val 2 b = .ok y ∧ s.loc 3 t = .ok l ∧
      f x y = .ok r ∧ e = { s.advance 4 with wr := some (l, r) } := by
  constructor
  · intro h
    rcases aluEnding_cases f a b t s with ⟨_, -, he⟩ | ⟨_, _, -, -, he⟩ | ⟨_, _, _, -, -, -, he⟩ |
      ⟨_, _, _, _, -, -, -, -, he⟩ | ⟨x, y, l, r, ha, hb, ht, hf, he⟩ <;> cases he.symm.trans h
    exact ⟨x, y, l, r, ha, hb, ht, hf, rfl⟩
  · rintro ⟨x, y, l, r, ha, hb, ht, hf, rfl⟩
    rw [aluEnding, ha, hb, ht]
    show Ending.ofStages (f x y >>= _) = _
    rw [hf]
    rfl

/-- IN commits the write of the queue's front, popped, where its target resolves. -/
theorem inpEnding_eq_commit_iff {t : Dst} :
    inpEnding t s = .commit e ↔ ∃ l v q, s.loc 1 t = .ok l ∧ s.inq = v :: q ∧
      e = { s.advance 2 with wr := some (l, v), popIn := true } := by
  constructor
  · intro h
    rcases inpEnding_cases t s with ⟨_, -, he⟩ | ⟨_, -, -, he⟩ | ⟨l, v, q, ht, hq, he⟩ <;> cases he.symm.trans h
    exact ⟨l, v, q, ht, hq, rfl⟩
  · rintro ⟨l, v, q, ht, hq, rfl⟩
    rw [inpEnding, ht, hq]
    rfl

/-- OUT commits its operand's value, appended. -/
theorem outEnding_eq_commit_iff {a : Src} :
    outEnding a s = .commit e ↔ ∃ x, s.val 1 a = .ok x ∧ e = { s.advance 2 with out := some x } := by
  constructor
  · intro h
    rcases outEnding_cases a s with ⟨_, -, he⟩ | ⟨x, ha, he⟩ <;> cases he.symm.trans h
    exact ⟨x, ha, rfl⟩
  · rintro ⟨x, ha, rfl⟩
    rw [outEnding, ha]
    rfl

/-- FRR commits the jump to a target that is not negative, or the advance where the jump is not taken. -/
theorem jumpEnding_eq_commit_iff {taken : Int → Bool} {c g : Src} :
    jumpEnding taken c g s = .commit e ↔ ∃ x y, s.val 1 c = .ok x ∧ s.val 2 g = .ok y ∧
      (taken x = true ∧ 0 ≤ y ∧ e = { s.advance 0 with pcNext := y.toNat } ∨ taken x = false ∧ e = s.advance 3) := by
  constructor
  · intro h
    rcases jumpEnding_cases taken c g s with ⟨_, -, he⟩ | ⟨_, _, -, -, he⟩ | ⟨_, _, -, -, -, -, he⟩ |
      ⟨x, y, hc, hg, hx, hy, he⟩ | ⟨x, y, hc, hg, hx, he⟩ <;> cases he.symm.trans h
    · exact ⟨x, y, hc, hg, .inl ⟨hx, hy, rfl⟩⟩
    · exact ⟨x, y, hc, hg, .inr ⟨hx, rfl⟩⟩
  · rintro ⟨x, y, hc, hg, ⟨hx, hy, rfl⟩ | ⟨hx, rfl⟩⟩
    · simp [jumpEnding, hc, hg, hx, jumpTo, Int.not_lt.2 hy, bind, Except.bind, Ending.ofStages, pure, Except.pure]
    · simp [jumpEnding, hc, hg, hx, bind, Except.bind, Ending.ofStages, pure, Except.pure]

/-- ARB commits the new base, on the extended core, where the exact sum fits. -/
theorem arbEnding_eq_commit_iff {d : Src} :
    arbEnding d s = .commit e ↔ ∃ x, s.cfg.variant = .extended ∧ s.val 1 d = .ok x ∧ s.cfg.variant.fits (s.rb + x) ∧
      e = { s.advance 2 with rbNext := s.rb + x } := by
  constructor
  · intro h
    rcases arbEnding_cases d s with ⟨-, he⟩ | ⟨_, -, -, he⟩ | ⟨_, -, -, -, he⟩ | ⟨x, hv, hd, hfit, he⟩ <;>
      cases he.symm.trans h
    exact ⟨x, hv, hd, hfit, rfl⟩
  · rintro ⟨x, hv, hd, hfit, rfl⟩
    exact arbEnding_eq_commit hv hd hfit

end

/-! The errors of each format, in their order (40_pipeline.md R85). -/

section
variable {s : State} {e : Trap}

theorem aluEnding_trap_first (f : Int → Int → Except Trap Int) {a : Src} (b : Src) (t : Dst)
    (h : s.val 1 a = .error e) : aluEnding f a b t s = .trap e := by
  rw [aluEnding, h]; rfl

theorem aluEnding_trap_second (f : Int → Int → Except Trap Int) {a b : Src} (t : Dst) {x : Int} (ha : s.val 1 a = .ok x)
    (h : s.val 2 b = .error e) : aluEnding f a b t s = .trap e := by
  rw [aluEnding, ha, h]; rfl

theorem aluEnding_trap_target (f : Int → Int → Except Trap Int) {a b : Src} {t : Dst} {x y : Int}
    (ha : s.val 1 a = .ok x) (hb : s.val 2 b = .ok y) (h : s.loc 3 t = .error e) : aluEnding f a b t s = .trap e := by
  rw [aluEnding, ha, hb, h]; rfl

theorem aluEnding_trap_function {f : Int → Int → Except Trap Int} {a b : Src} {t : Dst} {x y : Int} {l : Nat}
    (ha : s.val 1 a = .ok x) (hb : s.val 2 b = .ok y) (ht : s.loc 3 t = .ok l) (h : f x y = .error e) :
    aluEnding f a b t s = .trap e := by
  rw [aluEnding, ha, hb, ht]
  show Ending.ofStages (f x y >>= _) = _
  rw [h]
  rfl

theorem jumpEnding_trap_first (taken : Int → Bool) {c : Src} (g : Src) (h : s.val 1 c = .error e) :
    jumpEnding taken c g s = .trap e := by
  rw [jumpEnding, h]; rfl

theorem jumpEnding_trap_second (taken : Int → Bool) {c g : Src} {x : Int} (hc : s.val 1 c = .ok x)
    (h : s.val 2 g = .error e) : jumpEnding taken c g s = .trap e := by
  rw [jumpEnding, hc, h]; rfl

theorem jumpEnding_trap_negative {taken : Int → Bool} {c g : Src} {x y : Int} (hc : s.val 1 c = .ok x)
    (hg : s.val 2 g = .ok y) (hx : taken x = true) (hy : y < 0) :
    jumpEnding taken c g s = .trap ⟨.invalidJumpTarget, 2, y⟩ := by
  simp [jumpEnding, hc, hg, hx, jumpTo, hy, bind, Except.bind, Ending.ofStages]

theorem inpEnding_trap {t : Dst} (h : s.loc 1 t = .error e) : inpEnding t s = .trap e := by
  rw [inpEnding, h]; rfl

theorem outEnding_trap {a : Src} (h : s.val 1 a = .error e) : outEnding a s = .trap e := by
  rw [outEnding, h]; rfl

theorem arbEnding_trap {d : Src} (hv : s.cfg.variant = .extended) (h : s.val 1 d = .error e) :
    arbEnding d s = .trap e := by
  rw [arbEnding, hv, h]; rfl

theorem arbEnding_trap_overflow {d : Src} {x : Int} (hv : s.cfg.variant = .extended) (hd : s.val 1 d = .ok x)
    (hbig : ¬ s.cfg.variant.fits (s.rb + x)) : arbEnding d s = .trap ⟨.arithmeticOverflow, 1, s.rb + x⟩ := by
  rw [arbEnding, hv, hd]
  show Ending.ofStages (s.checkFits 1 (s.rb + x) >>= _) = _
  rw [checkFits_of_not_fits 1 hbig]
  rfl

end

/-! The meaning of an instruction from how it ends. -/

theorem exec_of_commit {i : Instr} {s : State} {e : Effect} (h : ending i s = .commit e) :
    exec i s = .next (s.commit e) := by
  rw [exec_eq_finish, h, conclude_commit]

theorem exec_of_trap {i : Instr} {s : State} {t : Trap} (h : ending i s = .trap t) :
    exec i s = .next (s.raise t) := by
  rw [exec_eq_finish, h, conclude_trap]

/-- What a completed ADD, MUL, LT or EQ leaves: the result written, `pc` four further (41_alu.md R100 to R103). -/
theorem exec_of_aluEnding {i : Instr} {f : Int → Int → Except Trap Int} {s : State} {a b : Src} {t : Dst} {x y r : Int}
    {l : Nat} (hi : ending i s = aluEnding f a b t s) (ha : s.val 1 a = .ok x) (hb : s.val 2 b = .ok y)
    (ht : s.loc 3 t = .ok l) (hf : f x y = .ok r) :
    exec i s = .next { s with mem := s.mem.write l r, pc := s.nextPc 4 } :=
  exec_of_commit (hi.trans (aluEnding_eq_commit_iff.2 ⟨x, y, l, r, ha, hb, ht, hf, rfl⟩))

/-- Settles O31: the format's rule, at a sum that fits. -/
theorem addWritesTheSum : Obligations.AddWritesTheSum :=
  fun _ _ _ _ _ _ _ ha hb ht hfit => exec_of_aluEnding rfl ha hb ht (checkFits_of_fits 0 hfit)

/-- Settles O32: the format's rule, at a product that fits. -/
theorem mulWritesTheProduct : Obligations.MulWritesTheProduct :=
  fun _ _ _ _ _ _ _ ha hb ht hfit => exec_of_aluEnding rfl ha hb ht (checkFits_of_fits 0 hfit)

/-- Settles O33: the format's rule, at a function that never raises. -/
theorem ltWritesTheComparison : Obligations.LtWritesTheComparison := by
  intro s a b t x y l ha hb ht
  rw [← lessThan_eq]
  exact exec_of_aluEnding rfl ha hb ht rfl

/-- Settles O34: the format's rule, at a function that never raises. -/
theorem eqWritesTheComparison : Obligations.EqWritesTheComparison := by
  intro s a b t x y l ha hb ht
  rw [← equalTo_eq]
  exact exec_of_aluEnding rfl ha hb ht rfl

/-- Settles O35: the function is the last stage that can raise. -/
theorem addAndMulOverflowRaise : Obligations.AddAndMulOverflowRaise :=
  fun _ _ _ _ _ _ _ ha hb ht =>
    ⟨fun hbig => exec_of_trap (aluEnding_trap_function ha hb ht (checkFits_of_not_fits 0 hbig)),
     fun hbig => exec_of_trap (aluEnding_trap_function ha hb ht (checkFits_of_not_fits 0 hbig))⟩

/-- Settles O36: what is left of the queue is its tail. -/
theorem inWritesTheFrontOfTheQueue : Obligations.InWritesTheFrontOfTheQueue := by
  intro s t l v q ht hq
  have hend : ending (.inp t) s = .commit _ := inpEnding_eq_commit_iff.2 ⟨l, v, q, ht, hq, rfl⟩
  rw [exec_of_commit hend, show q = s.inq.tail by rw [hq, List.tail_cons]]
  rfl

/-- Settles O37: the target is resolved before the queue is looked at. -/
theorem inWaitsOnAnEmptyQueue : Obligations.InWaitsOnAnEmptyQueue := by
  refine fun s t => ⟨fun l ht hq => ?_, fun e h => exec_of_trap (inpEnding_trap h)⟩
  have hend : ending (.inp t) s = .wait := (inpEnding_eq_wait_iff t s).2 ⟨l, ht, hq⟩
  rw [exec_eq_finish, hend]
  exact ⟨rfl, rfl⟩

/-- Settles O38 by OUT's effect. -/
theorem outAppendsItsValue : Obligations.OutAppendsItsValue :=
  fun s a x ha => exec_of_commit (i := .out a) (s := s) (outEnding_eq_commit_iff.2 ⟨x, ha, rfl⟩)

section
variable {i : Instr} {taken : Int → Bool} {s : State} {c g : Src} {x y : Int}
  (hi : ending i s = jumpEnding taken c g s) (hc : s.val 1 c = .ok x) (hg : s.val 2 g = .ok y)
include hi hc hg

/-- What a taken jump leaves: `pc` at its target (43_control.md R140, R141). -/
theorem exec_of_jump_taken (hx : taken x = true) (hy : 0 ≤ y) : exec i s = .next { s with pc := y.toNat } :=
  exec_of_commit (hi.trans (jumpEnding_eq_commit_iff.2 ⟨x, y, hc, hg, .inl ⟨hx, hy, rfl⟩⟩))

/-- What a jump not taken leaves: `pc` three further. -/
theorem exec_of_jump_not_taken (hx : taken x = false) : exec i s = .next { s with pc := s.nextPc 3 } :=
  exec_of_commit (hi.trans (jumpEnding_eq_commit_iff.2 ⟨x, y, hc, hg, .inr ⟨hx, rfl⟩⟩))

end

/-- Settles O39: JT takes its jump on a truthy condition. -/
theorem jtJumpsWhenNonzero : Obligations.JtJumpsWhenNonzero :=
  fun _ _ _ _ _ hc hg =>
    ⟨fun hx => exec_of_jump_taken (taken := fun x => truthy x) rfl hc hg (by simpa using hx),
     fun hx => exec_of_jump_not_taken (taken := fun x => truthy x) rfl hc hg (by simpa using hx)⟩

/-- Settles O40: JF takes its jump on a condition that is not truthy. -/
theorem jfJumpsWhenZero : Obligations.JfJumpsWhenZero :=
  fun _ _ _ _ _ hc hg =>
    ⟨fun hx => exec_of_jump_taken (taken := fun x => !truthy x) rfl hc hg (by simpa using hx),
     fun hx => exec_of_jump_not_taken (taken := fun x => !truthy x) rfl hc hg (by simpa using hx)⟩

/-- Settles O41: the target is checked once the jump is taken. -/
theorem negativeJumpTargetRaises : Obligations.NegativeJumpTargetRaises :=
  fun _ _ _ _ _ hc hg hy =>
    ⟨fun hx => exec_of_trap (jumpEnding_trap_negative hc hg (by simpa using hx) hy),
     fun hx => exec_of_trap (jumpEnding_trap_negative hc hg (by simpa using hx) hy)⟩

/-- Settles O42: HALT's ending commits nothing. -/
theorem haltChangesNothing : Obligations.HaltChangesNothing :=
  fun s => ⟨exec_eq_finish .halt s, rfl⟩

/-- Settles O43 by ARB's effect. -/
theorem arbAddsToTheRelativeBase : Obligations.ArbAddsToTheRelativeBase :=
  fun s d _ hv hd hfit => exec_of_commit (i := .arb d) (s := s) (arbEnding_eq_commit hv hd hfit)

/-- Settles O44: on NARROW opcode 9 is not among the decoder's. -/
theorem arbOverflowAndNarrowRaise : Obligations.ArbOverflowAndNarrowRaise := by
  refine ⟨fun s d x hv hd hbig => exec_of_trap (arbEnding_trap_overflow hv hd hbig), fun s n hv h hn hop => ?_⟩
  refine hostStep_raised_of_decodeNat h hn (decodeNat_unknownOpcode ?_)
  rw [hv, hop]
  decide

/-- ADD, MUL, LT and EQ differ in their function alone. -/
theorem ending_eq_aluEnding {s : State} {a b : Src} {t : Dst} {i : Instr}
    (h : i = .add a b t ∨ i = .mul a b t ∨ i = .lt a b t ∨ i = .eq a b t) :
    ∃ f, ending i s = aluEnding f a b t s := by
  rcases h with rfl | rfl | rfl | rfl <;> exact ⟨_, rfl⟩

/-- JT and JF differ in their condition alone. -/
theorem ending_eq_jumpEnding {s : State} {c g : Src} {i : Instr} (h : i = .jt c g ∨ i = .jf c g) :
    ∃ taken, ending i s = jumpEnding taken c g s := by
  rcases h with rfl | rfl <;> exact ⟨_, rfl⟩

/-- Settles O45, a format at a time. -/
theorem operandErrorsEndTheStepInOrder : Obligations.OperandErrorsEndTheStepInOrder := by
  refine ⟨fun s a b t i hi => ?_, fun s c g i hi => ?_, fun s a e h => ⟨?_, fun hv => ?_⟩, fun s t e h => ?_⟩
  · obtain ⟨f, hf⟩ := ending_eq_aluEnding hi
    exact ⟨fun e h => exec_of_trap (hf.trans (aluEnding_trap_first f b t h)),
      fun x e ha h => exec_of_trap (hf.trans (aluEnding_trap_second f t ha h)),
      fun x y e ha hb h => exec_of_trap (hf.trans (aluEnding_trap_target f ha hb h))⟩
  · obtain ⟨taken, hj⟩ := ending_eq_jumpEnding hi
    exact ⟨fun e h => exec_of_trap (hj.trans (jumpEnding_trap_first taken g h)),
      fun x e hc h => exec_of_trap (hj.trans (jumpEnding_trap_second taken hc h))⟩
  · exact exec_of_trap (outEnding_trap h)
  · exact exec_of_trap (arbEnding_trap hv h)
  · exact exec_of_trap (inpEnding_trap h)

/-- Settles O60: MOV is ADD with 0, and JMP and NOP are JT with 1 and with 0. -/
theorem pseudoInstructionsExpand : Obligations.PseudoInstructionsExpand := by
  refine ⟨fun s a t x l ha ht hfit => ?_, fun s g y hg hy => ?_, fun s => ?_⟩
  · have hadd := addWritesTheSum s a (.imm 0) t x 0 l ha (val_imm s 2 0) ht
    rw [Int.add_zero] at hadd
    exact hadd hfit
  · exact (jtJumpsWhenNonzero s (.imm 1) g 1 y (val_imm s 1 1) hg).1 (by decide) hy
  · exact (jtJumpsWhenNonzero s (.imm 0) (.imm 0) 0 0 (val_imm s 1 0) (val_imm s 2 0)).2 rfl

end Sys2Proof.Machine
end

section
/-! The step (40_pipeline.md R81 to R92). What a fetch can answer, taken apart once; then what a step changes for each
status it reports, and what the host's operations between steps leave of that. -/

open Sys2Proof.Claims

namespace Sys2Proof

/-- The operand words are too few exactly where the cells are fewer than the operands (40_pipeline.md R84). -/
theorem takeOperands_eq_none_iff (f : Form) (cells : List Int) :
    f.takeOperands cells = none ↔ cells.length < f.operands := by
  constructor
  · intro h
    by_contra hlen
    obtain ⟨i, rfl, hops⟩ := exists_instr_of_operandWords f (ws := cells.take f.operands) (by simp; omega)
    have hsome := takeOperands_operandWords i (cells.drop i.form.operands)
    rw [hops, List.take_append_drop, h] at hsome
    cases hsome
  · intro hlen
    cases h : f.takeOperands cells with
    | none => rfl
    | some r =>
      obtain ⟨i, rest⟩ := r
      have := congrArg List.length (operandWords_of_takeOperands h)
      rw [List.length_append, length_operandWords, form_of_takeOperands h] at this
      omega

theorem decode_cons_missing_iff (v : Variant) (w : Int) (cells : List Int) :
    decode v (w :: cells) = .error .missing ↔ ∃ f, decodeWord v w = .ok f ∧ cells.length < f.operands := by
  simp only [← takeOperands_eq_none_iff]
  cases hw : decodeWord v w with
  | error t => simp [decode, hw]
  | ok f => cases ht : f.takeOperands cells <;> simp [decode, hw, ht]

theorem decode_cons_illegal_iff (v : Variant) (w : Int) (cells : List Int) (t : Trap) :
    decode v (w :: cells) = .error (.illegal t) ↔ decodeWord v w = .error t := by
  cases hw : decodeWord v w with
  | error t => simp [decode, hw]
  | ok f => cases ht : f.takeOperands cells <;> simp [decode, hw, ht]

/-- An instruction is its form and its operand words (30_encoding.md R60). -/
theorem Instr.eq_of_form_of_operandWords {i j : Instr} (hf : i.form = j.form) (hw : i.operandWords = j.operandWords) :
    i = j := by
  have hi := takeOperands_operandWords i []
  rw [hf, hw, takeOperands_operandWords j []] at hi
  cases hi
  rfl

end Sys2Proof

namespace Sys2Proof.Machine

/-! What a fetch says of the cells at `pc`. -/

/-- Only LATCH answers that an error is latched (R81). -/
theorem err_of_fetch_latched {s : State} {e : ErrInfo} (h : s.fetch = .latched e) : s.err = some e := by
  unfold State.fetch at h
  split at h
  · next he => cases h; exact he
  · split at h
    · cases h
    · unfold State.decodeAtPc at h
      split at h <;> cases h

theorem err_of_fetch_ne_latched {s : State} (h : ∀ e, s.fetch ≠ .latched e) : s.err = none := by
  cases he : s.err with
  | none => rfl
  | some e => exact absurd (fetch_latched he) (h e)

theorem mem_window {s : State} {x : Int} (h : x ∈ s.window) : ∃ a, x = s.readCell a := by
  obtain ⟨k, -, rfl⟩ := List.mem_map.1 h
  exact ⟨s.pc + k, rfl⟩

/-- A fetched instruction stands in memory at `pc`, in a word that decodes and the operand words after it. -/
theorem cells_of_fetch_instr {s : State} {i : Instr} (h : s.fetch = .instr i) :
    decodeWord s.cfg.variant (s.readCell s.pc) = .ok i.form ∧
      ∃ rest, s.window = s.readCell s.pc :: (i.operandWords ++ rest) := by
  obtain ⟨-, hpc, hd⟩ := fetch_instr h
  obtain ⟨cells, hwin⟩ := window_eq_cons hpc
  obtain ⟨rest, hdec⟩ := (decodeAtPc_eq_instr_iff ..).1 hd
  rw [hwin] at hdec
  obtain ⟨f, hw, hops⟩ := (decode_cons_eq_ok_iff ..).1 hdec
  rw [← form_of_takeOperands hops] at hw
  exact ⟨hw, rest, by rw [hwin, operandWords_of_takeOperands hops]⟩

/-- A fetched instruction lies inside memory. -/
theorem length_le_of_fetch_instr {s : State} {i : Instr} (h : s.fetch = .instr i) :
    s.pc + i.length ≤ s.cfg.memSize := by
  obtain ⟨-, hpc, -⟩ := fetch_instr h
  obtain ⟨-, rest, hwin⟩ := cells_of_fetch_instr h
  have hlen := congrArg List.length hwin
  simp only [length_window, List.length_cons, List.length_append, length_operandWords] at hlen
  rw [Instr.length, Form.length]
  omega

/-- DECODE and OPERAND FETCH raise what the word at `pc` does not decode for, or the first cell missing (R83, R84). -/
theorem fetch_trap_cases {s : State} {t : Trap} (h : s.fetch = .trap t) :
    decodeWord s.cfg.variant (s.readCell s.pc) = .error t ∨
    ∃ f : Form, s.cfg.memSize < s.pc + f.length ∧ t = ⟨.missingOperand, s.cfg.memSize - s.pc, s.cfg.memSize⟩ := by
  have herr : s.err = none := err_of_fetch_ne_latched (by simp [h])
  have hpc : s.pc < s.cfg.memSize := by
    by_contra hp
    rw [fetch_pastEnd herr (Nat.not_lt.1 hp)] at h
    cases h
  obtain ⟨cells, hwin⟩ := window_eq_cons hpc
  rw [fetch_inside herr hpc, State.decodeAtPc] at h
  split at h
  · cases h
  · next hd =>
    cases h
    rw [hwin, decode_cons_illegal_iff] at hd
    exact .inl hd
  · next hd =>
    cases h
    rw [hwin, decode_cons_missing_iff] at hd
    obtain ⟨f, -, hlen⟩ := hd
    have hw := congrArg List.length hwin
    have hf := length_le_longestInstr f
    rw [length_window, List.length_cons] at hw
    rw [Form.length] at hf
    refine .inr ⟨f, ?_, rfl⟩
    rw [Form.length]
    omega
  · cases h

/-- Where the word at `pc` is legal and its operands reach past the end, the first missing cell is raised (R84). -/
theorem fetch_missing {s : State} {f : Form} (h : ready s) (hw : decodeWord s.cfg.variant (s.readCell s.pc) = .ok f)
    (hlen : s.cfg.memSize < s.pc + f.length) :
    s.fetch = .trap ⟨.missingOperand, s.cfg.memSize - s.pc, s.cfg.memSize⟩ := by
  obtain ⟨herr, hpc⟩ := h
  obtain ⟨cells, hwin⟩ := window_eq_cons hpc
  have hmiss : decode s.cfg.variant s.window = .error .missing := by
    rw [hwin, decode_cons_missing_iff]
    refine ⟨f, hw, ?_⟩
    have := congrArg List.length hwin
    rw [length_window, List.length_cons] at this
    rw [Form.length] at hlen
    omega
  rw [fetch_inside herr hpc, State.decodeAtPc, hmiss]

/-- Settles O9: what decodes is what is fetched. -/
theorem stepRunsTheFetchedInstruction : Obligations.StepRunsTheFetchedInstruction :=
  fun _ _ _ h hd => step_of_fetch_instr (fetch_instr_of_decode h hd)

/-! An instruction placed at `pc` (30_encoding.md R60). -/

theorem readCell_pc_of_placed {i : Instr} {s : State} (h : placed i s) : s.readCell s.pc = encodeWord i :=
  h 0 (encodeWord i) rfl

theorem cellsAfterPc_of_placed {i : Instr} {s : State} (h : placed i s) :
    s.cellsAfterPc i.form.operands = i.operandWords := by
  refine List.ext_getElem (by simp) fun k hk hk' => ?_
  have hcell : (encode i)[k + 1]? = some i.operandWords[k] := by
    rw [encode, List.getElem?_cons_succ, List.getElem?_eq_getElem]
  simp only [State.cellsAfterPc, List.getElem_map, List.getElem_range]
  rw [Nat.add_assoc, Nat.add_comm 1, h (k + 1) _ hcell]

theorem fetch_of_placed {i : Instr} {s : State} (herr : s.err = none) (hwf : i.wf s.cfg.variant = true)
    (hlen : s.pc + i.length ≤ s.cfg.memSize) (h : placed i s) : s.fetch = .instr i := by
  have hpc : s.pc < s.cfg.memSize := by rw [Instr.length, Form.length] at hlen; omega
  have hw : decodeWord s.cfg.variant (s.readCell s.pc) = .ok i.form := by
    rw [readCell_pc_of_placed h, decodeWord_eq_ok_iff]
    exact ⟨Instr.form_legal_of_wf hwf, rfl⟩
  obtain ⟨j, hform, hops, hfetch⟩ := fetch_instr_of_decodeWord ⟨herr, hpc⟩ hw hlen
  rw [cellsAfterPc_of_placed h] at hops
  rw [hfetch, Instr.eq_of_form_of_operandWords hform hops]

/-- Settles O10: what is placed is what is fetched. -/
theorem stepRunsAPlacedInstruction : Obligations.StepRunsAPlacedInstruction := by
  intro s i herr hwf hlen h
  have hfetch := fetch_of_placed herr hwf hlen h
  exact ⟨step_of_fetch_instr hfetch, hostStep_of_fetch_instr hfetch⟩

/-- Settles O12: OPERAND FETCH raises it. -/
theorem missingOperandRaises : Obligations.MissingOperandRaises := by
  intro s f h hw hlen
  rw [hostStep, fetch_missing h hw hlen, raised]

/-! What a step changes (40_pipeline.md R81, R91). -/

theorem hostStep_latched {s : State} {e : ErrInfo} (h : s.err = some e) : hostStep s = (s, .error e) := by
  rw [hostStep, fetch_latched h]

/-- Settles O13, by induction on the number of steps. -/
theorem latchedErrorIsReportedForEver : Obligations.LatchedErrorIsReportedForEver := by
  intro s e n h
  have hstay : stepsFrom n s = s := by
    induction n with
    | zero => rfl
    | succ n ih => rw [stepsFrom, hostStep_latched h, ih]
  rw [hstay]
  exact ⟨rfl, hostStep_latched h⟩

/-- Settles O14: both steps run on the same fetch, and a meaning is its ending, concluded. -/
theorem stepAlwaysAnswersANextState : Obligations.StepAlwaysAnswersANextState := by
  intro s
  rw [step, hostStep]
  cases s.fetch with
  | latched e => rfl
  | pastEnd => rfl
  | trap t => rfl
  | instr i => exact exec_eq_finish i s

/-- The latch, where it already holds the record, is not changed by setting it again. -/
theorem setErr_of_err {s : State} {e : ErrInfo} (h : s.err = some e) : s = { s with err := some e } := by
  rw [← h]

/-- All a step can do: commit an instruction's effect and answer `ok`, or leave everything and answer WAIT or HALT, or
set the latch, if it was not, to the record it reports. -/
theorem hostStep_cases (s : State) :
    (∃ i e, s.fetch = .instr i ∧ ending i s = .commit e ∧ hostStep s = (s.commit e, .ok)) ∨
    hostStep s = (s, .wait) ∨ hostStep s = (s, .halt) ∨ ∃ e, hostStep s = ({ s with err := some e }, .error e) := by
  cases hf : s.fetch with
  | latched e =>
    have herr := err_of_fetch_latched hf
    exact .inr (.inr (.inr ⟨e, by rw [hostStep_latched herr, ← setErr_of_err herr]⟩))
  | pastEnd => exact .inr (.inr (.inl (by rw [hostStep, hf])))
  | trap t => exact .inr (.inr (.inr ⟨s.errInfo t, by rw [hostStep, hf]; rfl⟩))
  | instr i =>
    rw [hostStep_of_fetch_instr hf]
    cases he : ending i s with
    | commit e => exact .inl ⟨i, e, rfl, he, rfl⟩
    | wait => exact .inr (.inl rfl)
    | halt => exact .inr (.inr (.inl rfl))
    | trap t => exact .inr (.inr (.inr ⟨s.errInfo t, rfl⟩))

/-- Settles O15: one case for each thing a step can do. -/
theorem onlyOkChangesState : Obligations.OnlyOkChangesState := by
  intro s t st h
  rcases hostStep_cases s with ⟨i, e, -, -, hs⟩ | hs | hs | ⟨e, hs⟩ <;> cases hs.symm.trans h <;> simp

theorem hostStep_eq_of_wait {s : State} (h : (hostStep s).2 = .wait) : hostStep s = (s, .wait) :=
  Prod.ext ((onlyOkChangesState s _ _ rfl).1 h) h

theorem hostStep_eq_of_halt {s : State} (h : (hostStep s).2 = .halt) : hostStep s = (s, .halt) :=
  Prod.ext ((onlyOkChangesState s _ _ rfl).2.1 h) h

/-! The host's operations between steps (60_exceptions.md R187 to R190). -/

/-- The state with other queues. -/
def State.withQueues (s : State) (i o : List Int) : State := { s with inq := i, outq := o }

@[simp] theorem withQueues_self (s : State) : s.withQueues s.inq s.outq = s := rfl

/-- All an operation but the step can do: append a value that fits to the input by a push, take a value from the
output by a pop. -/
theorem hostOp_cases (op : HostOp) (s : State) :
    (op = .step ∧ (hostOp op s).1 = (hostStep s).1) ∨
    ∃ i o, (hostOp op s).1 = s.withQueues i o ∧
      (∀ x ∈ i, x ∈ s.inq ∨ s.cfg.variant.fits x) ∧ (∀ x ∈ o, x ∈ s.outq) ∧
      ((∀ v, op ≠ .push v) → i = s.inq) ∧ (op ≠ .popFront → op ≠ .popBack → o = s.outq) := by
  cases op with
  | step => exact .inl ⟨rfl, rfl⟩
  | inspect q => exact .inr ⟨s.inq, s.outq, rfl, fun _ => .inl, fun _ => id, fun _ => rfl, fun _ _ => rfl⟩
  | push v =>
    rcases push_cases s v with ⟨hfit, hp⟩ | ⟨-, hp⟩
    · refine .inr ⟨s.inq ++ [v], s.outq, by rw [hostOp, hp]; rfl, fun x hx => ?_, fun _ => id,
        fun h => absurd rfl (h v), fun _ _ => rfl⟩
      rcases List.mem_append.1 hx with hx | hx
      · exact .inl hx
      · exact .inr (List.mem_singleton.1 hx ▸ hfit)
    · exact .inr ⟨s.inq, s.outq, by rw [hostOp, hp]; rfl, fun _ => .inl, fun _ => id, fun _ => rfl, fun _ _ => rfl⟩
  | popFront =>
    rcases popFront_cases s with ⟨-, hp⟩ | ⟨v, q, hq, hp⟩
    · exact .inr ⟨s.inq, s.outq, by rw [hostOp, hp]; rfl, fun _ => .inl, fun _ => id, fun _ => rfl, fun _ _ => rfl⟩
    · exact .inr ⟨s.inq, q, by rw [hostOp, hp]; rfl, fun _ => .inl, fun x hx => hq ▸ List.mem_cons_of_mem v hx,
        fun _ => rfl, fun h => absurd rfl h⟩
  | popBack =>
    rcases popBack_cases s with ⟨-, hp⟩ | ⟨q, v, hq, hp⟩
    · exact .inr ⟨s.inq, s.outq, by rw [hostOp, hp]; rfl, fun _ => .inl, fun _ => id, fun _ => rfl, fun _ _ => rfl⟩
    · exact .inr ⟨s.inq, q, by rw [hostOp, hp]; rfl, fun _ => .inl, fun x hx => hq ▸ List.mem_append_left [v] hx,
        fun _ => rfl, fun _ h => absurd rfl h⟩

/-! LATCH to OPERAND FETCH, and the address of a write target, read neither queue. -/

theorem fetch_withQueues (s : State) (i o : List Int) : (s.withQueues i o).fetch = s.fetch := rfl

theorem loc_withQueues (s : State) (i o : List Int) (k : Nat) (t : Dst) : (s.withQueues i o).loc k t = s.loc k t := by
  cases t <;> rfl

/-- HALT depends on what is fetched alone. -/
theorem hostStep_halt_iff_fetch (s : State) : (hostStep s).2 = .halt ↔ s.fetch = .pastEnd ∨ s.fetch = .instr .halt := by
  simp [hostStep_halt_iff, ending_eq_halt_iff]

/-- WAIT depends on what is fetched, on the target and on the input. -/
theorem hostStep_wait_iff_fetch (s : State) :
    (hostStep s).2 = .wait ↔ ∃ d l, s.fetch = .instr (.inp d) ∧ s.loc 1 d = .ok l ∧ s.inq = [] := by
  rw [hostStep_wait_iff_blocked, blocked_iff]

/-- Settles O16: no operation but a step changes what is fetched, and a step that halts changes nothing. -/
theorem haltStaysHalted : Obligations.HaltStaysHalted := by
  intro s h
  have hs := hostStep_eq_of_halt h
  refine ⟨hs, fun op => ?_⟩
  rcases hostOp_cases op s with ⟨-, hop⟩ | ⟨i, o, hop, -⟩
  · rw [hop, hs, hs]
  · rwa [hop, hostStep_halt_iff_fetch, fetch_withQueues, ← hostStep_halt_iff_fetch]

/-- Settles O17: no operation but a step changes what is fetched and where its target is, and a push lets the IN
commit. -/
theorem waitLastsUntilAPush : Obligations.WaitLastsUntilAPush := by
  intro s h
  have hs := hostStep_eq_of_wait h
  obtain ⟨d, l, hf, hl, hq⟩ := (hostStep_wait_iff_fetch s).1 h
  refine ⟨hs, fun op hempty => ?_, d, l, hf, hl, fun v u hpush => ?_⟩
  · rcases hostOp_cases op s with ⟨-, hop⟩ | ⟨i, o, hop, -⟩
    · rw [hop, hs, hs]
    · rw [hop] at hempty ⊢
      exact (hostStep_wait_iff_fetch _).2 ⟨d, l, hf, (loc_withQueues s i o 1 d).trans hl, hempty⟩
  · rcases push_cases s v with ⟨-, hp⟩ | ⟨-, hp⟩ <;> cases hp.symm.trans hpush
    have hu : ending (.inp d) (s.withQueues (s.inq ++ [v]) s.outq) = .commit _ :=
      inpEnding_eq_commit_iff.2 ⟨l, v, [], (loc_withQueues ..).trans hl, by rw [hq]; rfl, rfl⟩
    have hf' := (fetch_withQueues s (s.inq ++ [v]) s.outq).trans hf
    have hstep := hostStep_of_fetch_instr hf'
    rw [hu, conclude_commit, statusOf_commit, hq] at hstep
    rw [hq]
    exact hstep

end Sys2Proof.Machine
end

section
/-! Frames and `pc` (10_state.md R22 and section 5). What an instruction changes stands in the effect it commits: each
statement is a fact about that effect, read off format by format. -/

open Sys2Proof.Claims

namespace Sys2Proof.Machine

section
variable {i : Instr} {s : State} {e : Effect}

/-- A committed instruction writes only the cell its write operand names (20_memory.md R43). -/
theorem target_of_wr {l : Nat} {v : Int} (h : ending i s = .commit e) (hwr : e.wr = some (l, v)) :
    ∃ k d, target i = some (k, d) ∧ s.loc k d = .ok l := by
  cases i with
  | add _ _ d | mul _ _ d | lt _ _ d | eq _ _ d =>
    obtain ⟨_, _, _, _, -, -, hl, -, rfl⟩ := aluEnding_eq_commit_iff.1 h
    cases hwr
    exact ⟨3, d, rfl, hl⟩
  | inp d =>
    obtain ⟨_, _, _, hl, -, rfl⟩ := inpEnding_eq_commit_iff.1 h
    cases hwr
    exact ⟨1, d, rfl, hl⟩
  | out =>
    obtain ⟨_, -, rfl⟩ := outEnding_eq_commit_iff.1 h
    cases hwr
  | jt | jf => obtain ⟨_, _, -, -, ⟨-, -, rfl⟩ | ⟨-, rfl⟩⟩ := jumpEnding_eq_commit_iff.1 h <;> cases hwr
  | arb =>
    obtain ⟨_, -, -, -, rfl⟩ := arbEnding_eq_commit_iff.1 h
    cases hwr
  | halt => cases h

/-- ARB alone changes the base (R24). -/
theorem rbNext_of_ending (h : ending i s = .commit e) (harb : ∀ d, i ≠ .arb d) : e.rbNext = s.rb := by
  cases i with
  | add | mul | lt | eq =>
    obtain ⟨_, _, _, _, -, -, -, -, rfl⟩ := aluEnding_eq_commit_iff.1 h
    rfl
  | inp =>
    obtain ⟨_, _, _, -, -, rfl⟩ := inpEnding_eq_commit_iff.1 h
    rfl
  | out =>
    obtain ⟨_, -, rfl⟩ := outEnding_eq_commit_iff.1 h
    rfl
  | jt | jf => obtain ⟨_, _, -, -, ⟨-, -, rfl⟩ | ⟨-, rfl⟩⟩ := jumpEnding_eq_commit_iff.1 h <;> rfl
  | arb d => exact absurd rfl (harb d)
  | halt => cases h

end

/-- Another cell than the one written keeps its value, over any ending. -/
theorem readCell_conclude {s : State} {en : Ending} {a : Nat}
    (h : ∀ e v, en = .commit e → e.wr ≠ some (a, v)) : (s.conclude en).readCell a = s.readCell a := by
  cases en with
  | wait | halt | trap => rfl
  | commit e =>
    rw [conclude_commit, State.readCell, State.readCell]
    cases hwr : e.wr with
    | none => rw [commit_mem_keep s e hwr]
    | some c =>
      have hne : a ≠ c.1 := fun hac => h e c.2 rfl (by rw [hwr, hac])
      rw [commit_mem_write s e c.1 c.2 hwr, Memory.read_write_other _ _ _ _ hne]

theorem eq_conclude_of_exec {i : Instr} {s t : State} (h : exec i s = .next t) : t = s.conclude (ending i s) := by
  rw [exec_eq_finish] at h
  cases h
  rfl

/-- A cell that no resolved write operand names keeps its value. -/
theorem readCell_exec {i : Instr} {s t : State} (h : exec i s = .next t) {a : Nat}
    (ha : ∀ k d l, target i = some (k, d) → s.loc k d = .ok l → a ≠ l) : t.readCell a = s.readCell a := by
  obtain rfl := eq_conclude_of_exec h
  refine readCell_conclude fun e v he hwr => ?_
  obtain ⟨k, d, ht, hl⟩ := target_of_wr he hwr
  exact ha k d a ht hl rfl

/-- Settles O29: a cell that the target does not resolve to is not the one written. -/
theorem memoryChangesOnlyAtTheTarget : Obligations.MemoryChangesOnlyAtTheTarget := by
  refine fun i s t h => ⟨fun k d l ht hl a hne => ?_, fun k d x ht hl a => ?_, fun ht a => ?_⟩
  · refine readCell_exec h fun k' d' l' ht' hl' => ?_
    cases ht.symm.trans ht'
    cases hl.symm.trans hl'
    exact hne
  · refine readCell_exec h fun k' d' l' ht' hl' => ?_
    cases ht.symm.trans ht'
    cases hl.symm.trans hl'
  · exact readCell_exec h fun k' d' l' ht' => nomatch ht.symm.trans ht'

theorem inq_of_queuesAfter {i : Instr} {s t : State} (h : queuesAfter i s t) (hinp : ∀ d, i ≠ .inp d) :
    t.inq = s.inq := by
  cases i with
  | inp d => exact absurd rfl (hinp d)
  | out => exact h.2
  | _ => exact h.1

theorem outq_of_queuesAfter {i : Instr} {s t : State} (h : queuesAfter i s t) (hout : ∀ a, i ≠ .out a) :
    t.outq = s.outq := by
  cases i with
  | out a => exact absurd rfl (hout a)
  | _ => exact h.2

/-- Settles O30: an ending that commits nothing changes at most the latch. -/
theorem instructionsChangeOnlyTheirRegisters : Obligations.InstructionsChangeOnlyTheirRegisters := by
  intro i s t h
  obtain rfl := eq_conclude_of_exec h
  refine ⟨conclude_cfg s _, ?_⟩
  cases he : ending i s with
  | commit e =>
    have hq := queuesAfter_commit he
    exact ⟨rbNext_of_ending he, inq_of_queuesAfter hq, outq_of_queuesAfter hq, .inl rfl⟩
  | wait | halt => exact ⟨fun _ => rfl, fun _ => rfl, fun _ => rfl, .inl rfl⟩
  | trap t => exact ⟨fun _ => rfl, fun _ => rfl, fun _ => rfl, .inr ⟨t, rfl⟩⟩

/-! How `pc` advances (R21 to R23). -/

theorem advanced_of_pc {s t : State} {n : Nat} (h : t.pc = s.nextPc n) : advanced n s t := by
  rw [advanced, h]
  refine ⟨nextPc_eq, nextPc_le s n, fun hpc => ?_⟩
  rcases nextPc_cases s n with ⟨-, he⟩ | ⟨-, -, hge⟩
  · omega
  · exact hge hpc

/-- Where a committed jump leaves `pc`, for the condition that `taken` tests. -/
theorem jumpPc_commit {jumps : Int → Prop} {taken : Int → Bool} {c g : Src} {s : State} {e : Effect}
    (hj : ∀ x, taken x = true ↔ jumps x) (h : jumpEnding taken c g s = .commit e) :
    jumpPc jumps c g s (s.commit e) := by
  obtain ⟨x, y, hc, hg, ⟨hx, hy, rfl⟩ | ⟨hx, rfl⟩⟩ := jumpEnding_eq_commit_iff.1 h
  · exact ⟨x, y, hc, hg, fun _ => Int.toNat_of_nonneg hy, fun hn => absurd ((hj x).1 hx) hn⟩
  · exact ⟨x, y, hc, hg, fun hp => absurd ((hj x).2 hp) (by simp [hx]), fun _ => advanced_of_pc rfl⟩

theorem pcAfter_commit {i : Instr} {s : State} {e : Effect} (h : ending i s = .commit e) :
    pcAfter i s (s.commit e) := by
  cases i with
  | add | mul | lt | eq =>
    obtain ⟨_, _, _, _, -, -, -, -, rfl⟩ := aluEnding_eq_commit_iff.1 h
    exact advanced_of_pc rfl
  | inp =>
    obtain ⟨_, _, _, -, -, rfl⟩ := inpEnding_eq_commit_iff.1 h
    exact advanced_of_pc rfl
  | out =>
    obtain ⟨_, -, rfl⟩ := outEnding_eq_commit_iff.1 h
    exact advanced_of_pc rfl
  | jt => exact jumpPc_commit (by simp) h
  | jf => exact jumpPc_commit (by simp) h
  | arb =>
    obtain ⟨_, -, -, -, rfl⟩ := arbEnding_eq_commit_iff.1 h
    exact advanced_of_pc rfl
  | halt => cases h

/-- Settles O25: a step answers `ok` only by committing, and no other step changes `pc`. -/
theorem pcAdvancesByTheFormat : Obligations.PcAdvancesByTheFormat := by
  refine ⟨fun s n => advanced_of_pc rfl, fun s t i hf h => ?_, fun s t st h hst => ?_⟩
  · obtain ⟨e, he, rfl⟩ := commit_of_hostStep_ok hf h
    exact pcAfter_commit he
  · rcases hostStep_cases s with ⟨i, e, -, -, hs⟩ | hs | hs | ⟨e, hs⟩ <;> cases hs.symm.trans h
    · exact absurd rfl hst
    all_goals rfl

end Sys2Proof.Machine
end

section
/-! The invariants of the state (10_state.md R33). Committing keeps them where the effect lies within them, and raising
where the error names an operand up to 3. An instruction fetched from such a state has operand words that fit, so its
effect does; and every error of the decoder and of the resolver names an operand up to 3. -/

open Sys2Proof.Claims

namespace Sys2Proof

/-! Which operand an error names (60_exceptions.md R172). -/

/-- No error of the stage names an operand beyond the third. -/
def TrapsWithin {α : Type} (x : Except Trap α) : Prop := ∀ t, x = .error t → t.operand ≤ 3

theorem trapsWithin_ok {α : Type} (a : α) : TrapsWithin (.ok a : Except Trap α) := nofun

theorem trapsWithin_error {α : Type} {t : Trap} (h : t.operand ≤ 3) : TrapsWithin (.error t : Except Trap α) := by
  rintro _ ⟨⟩
  exact h

theorem trapsWithin_bind {α β : Type} {x : Except Trap α} {f : α → Except Trap β} (hx : TrapsWithin x)
    (hf : ∀ a, TrapsWithin (f a)) : TrapsWithin (x >>= f) := by
  cases x with
  | error t => exact trapsWithin_error (hx t rfl)
  | ok a => exact hf a

theorem decodeMode_trapsWithin (v : Variant) (n : Nat) {k : Nat} (h : k ≤ 3) : TrapsWithin (decodeMode v n k) := by
  rcases decodeMode_cases v n k with ⟨-, he⟩ | ⟨-, he⟩ <;> rw [he]
  · exact trapsWithin_ok _
  · exact trapsWithin_error h

theorem decodeNoExcess_trapsWithin (n k : Nat) : TrapsWithin (decodeNoExcess n k) := by
  rcases decodeNoExcess_cases n k with ⟨-, he⟩ | ⟨-, he⟩ <;> rw [he]
  · exact trapsWithin_ok _
  · exact trapsWithin_error (Nat.zero_le 3)

theorem decodeTarget_trapsWithin (n : Nat) {k : Nat} (h : k ≤ 3) (m : Mode) : TrapsWithin (decodeTarget n k m) := by
  cases m with
  | position | relative => exact trapsWithin_ok _
  | immediate => exact trapsWithin_error h

theorem decodeF0_trapsWithin (n : Nat) (f : Form) : TrapsWithin (decodeF0 n f) :=
  trapsWithin_bind (decodeNoExcess_trapsWithin n 0) fun _ => trapsWithin_ok f

theorem decodeFR_trapsWithin (v : Variant) (n : Nat) (f : Mode → Form) : TrapsWithin (decodeFR v n f) :=
  trapsWithin_bind (decodeMode_trapsWithin v n (by decide)) fun _ =>
    trapsWithin_bind (decodeNoExcess_trapsWithin n 1) fun _ => trapsWithin_ok _

theorem decodeFW_trapsWithin (v : Variant) (n : Nat) (f : TargetMode → Form) : TrapsWithin (decodeFW v n f) :=
  trapsWithin_bind (decodeMode_trapsWithin v n (by decide)) fun m1 =>
    trapsWithin_bind (decodeNoExcess_trapsWithin n 1) fun _ =>
      trapsWithin_bind (decodeTarget_trapsWithin n (by decide) m1) fun _ => trapsWithin_ok _

theorem decodeFRR_trapsWithin (v : Variant) (n : Nat) (f : Mode → Mode → Form) : TrapsWithin (decodeFRR v n f) :=
  trapsWithin_bind (decodeMode_trapsWithin v n (by decide)) fun _ =>
    trapsWithin_bind (decodeMode_trapsWithin v n (by decide)) fun _ =>
      trapsWithin_bind (decodeNoExcess_trapsWithin n 2) fun _ => trapsWithin_ok _

theorem decodeFRRW_trapsWithin (v : Variant) (n : Nat) (f : Mode → Mode → TargetMode → Form) :
    TrapsWithin (decodeFRRW v n f) :=
  trapsWithin_bind (decodeMode_trapsWithin v n (by decide)) fun _ =>
    trapsWithin_bind (decodeMode_trapsWithin v n (by decide)) fun _ =>
      trapsWithin_bind (decodeMode_trapsWithin v n (by decide)) fun m3 =>
        trapsWithin_bind (decodeNoExcess_trapsWithin n 3) fun _ =>
          trapsWithin_bind (decodeTarget_trapsWithin n (by decide) m3) fun _ => trapsWithin_ok _

theorem decodeNat_trapsWithin (v : Variant) (n : Nat) : TrapsWithin (decodeNat v n) := by
  unfold decodeNat
  split
  · split
    case h_1 | h_2 | h_7 | h_8 => exact decodeFRRW_trapsWithin v n _
    case h_3 => exact decodeFW_trapsWithin v n _
    case h_4 | h_9 => exact decodeFR_trapsWithin v n _
    case h_5 | h_6 => exact decodeFRR_trapsWithin v n _
    case h_10 => exact decodeF0_trapsWithin n _
    case h_11 => exact trapsWithin_error (Nat.zero_le 3)
  · exact trapsWithin_error (Nat.zero_le 3)

theorem decodeWord_trapsWithin (v : Variant) (w : Int) : TrapsWithin (decodeWord v w) := by
  unfold decodeWord
  split
  · exact trapsWithin_error (Nat.zero_le 3)
  · exact decodeNat_trapsWithin v w.toNat

theorem Variant.fits_zero (v : Variant) : v.fits 0 := by cases v <;> decide

theorem Variant.cellMax_nonneg (v : Variant) : 0 ≤ v.cellMax := by cases v <;> decide

end Sys2Proof

namespace Sys2Proof.Machine

section
variable {s : State} {k : Nat}

theorem checkAddr_trapsWithin (s : State) (hk : k ≤ 3) (a : Int) : TrapsWithin (s.checkAddr k a) := by
  rcases checkAddr_cases s k a with ⟨-, -, he⟩ | ⟨-, he⟩ <;> rw [he]
  · exact trapsWithin_ok _
  · exact trapsWithin_error hk

theorem readAt_trapsWithin {x : Except Trap Nat} (h : TrapsWithin x) : TrapsWithin (s.readAt x) := by
  cases x with
  | ok a => exact trapsWithin_ok _
  | error t => exact trapsWithin_error (h t rfl)

theorem loc_trapsWithin (s : State) (hk : k ≤ 3) (t : Dst) : TrapsWithin (s.loc k t) := by
  cases t with
  | pos n => exact checkAddr_trapsWithin s hk n
  | rel n =>
    cases hv : s.cfg.variant with
    | narrow => rw [loc_rel_narrow k n hv]; exact trapsWithin_error hk
    | extended => rw [loc_rel_extended k n hv]; exact checkAddr_trapsWithin s hk _

theorem val_trapsWithin (s : State) (hk : k ≤ 3) (a : Src) : TrapsWithin (s.val k a) := by
  cases a with
  | pos n => exact readAt_trapsWithin (checkAddr_trapsWithin s hk n)
  | imm n => exact trapsWithin_ok n
  | rel n =>
    cases hv : s.cfg.variant with
    | narrow => rw [val_rel_narrow k n hv]; exact trapsWithin_error hk
    | extended => rw [val_rel_extended k n hv]; exact readAt_trapsWithin (checkAddr_trapsWithin s hk _)

theorem checkFits_trapsWithin (s : State) (hk : k ≤ 3) (r : Int) : TrapsWithin (s.checkFits k r) := by
  rcases checkFits_cases s k r with ⟨-, he⟩ | ⟨-, he⟩ <;> rw [he]
  · exact trapsWithin_ok _
  · exact trapsWithin_error hk

end

section
variable {s : State} {t : Trap}

theorem operand_of_aluEnding {f : Int → Int → Except Trap Int} {a b : Src} {d : Dst}
    (hf : ∀ x y, TrapsWithin (f x y)) (h : aluEnding f a b d s = .trap t) : t.operand ≤ 3 := by
  rcases aluEnding_cases f a b d s with ⟨e, hv, he⟩ | ⟨_, e, -, hv, he⟩ | ⟨_, _, e, -, -, hl, he⟩ |
    ⟨x, y, _, e, -, -, -, hr, he⟩ | ⟨_, _, _, _, -, -, -, -, he⟩ <;> cases he.symm.trans h
  · exact val_trapsWithin s (by decide) a _ hv
  · exact val_trapsWithin s (by decide) b _ hv
  · exact loc_trapsWithin s (by decide) d _ hl
  · exact hf x y _ hr

theorem operand_of_jumpEnding {taken : Int → Bool} {c g : Src} (h : jumpEnding taken c g s = .trap t) :
    t.operand ≤ 3 := by
  rcases jumpEnding_cases taken c g s with ⟨e, hv, he⟩ | ⟨_, e, -, hv, he⟩ | ⟨_, _, -, -, -, -, he⟩ |
    ⟨_, _, -, -, -, -, he⟩ | ⟨_, _, -, -, -, he⟩ <;> cases he.symm.trans h
  · exact val_trapsWithin s (by decide) c _ hv
  · exact val_trapsWithin s (by decide) g _ hv
  · exact (by decide : 2 ≤ 3)

theorem operand_of_inpEnding {d : Dst} (h : inpEnding d s = .trap t) : t.operand ≤ 3 := by
  rcases inpEnding_cases d s with ⟨_, hl, he⟩ | ⟨_, -, -, he⟩ | ⟨_, _, _, -, -, he⟩ <;> cases he.symm.trans h
  exact loc_trapsWithin s (by decide) d _ hl

theorem operand_of_outEnding {a : Src} (h : outEnding a s = .trap t) : t.operand ≤ 3 := by
  rcases outEnding_cases a s with ⟨_, hv, he⟩ | ⟨_, -, he⟩ <;> cases he.symm.trans h
  exact val_trapsWithin s (by decide) a _ hv

theorem operand_of_arbEnding {d : Src} (h : arbEnding d s = .trap t) : t.operand ≤ 3 := by
  rcases arbEnding_cases d s with ⟨-, he⟩ | ⟨_, -, hv, he⟩ | ⟨_, -, -, -, he⟩ | ⟨_, -, -, -, he⟩ <;>
    cases he.symm.trans h
  · exact Nat.zero_le 3
  · exact val_trapsWithin s (by decide) d _ hv
  · exact (by decide : 1 ≤ 3)

/-- No instruction raises an error of an operand beyond the third. -/
theorem operand_of_ending {i : Instr} (h : ending i s = .trap t) : t.operand ≤ 3 := by
  cases i with
  | add | mul => exact operand_of_aluEnding (fun _ _ => checkFits_trapsWithin s (by decide) _) h
  | lt | eq => exact operand_of_aluEnding (fun _ _ => trapsWithin_ok _) h
  | jt | jf => exact operand_of_jumpEnding h
  | inp => exact operand_of_inpEnding h
  | out => exact operand_of_outEnding h
  | arb => exact operand_of_arbEnding h
  | halt => cases h

/-- Nor do DECODE and OPERAND FETCH: the first missing operand is one of the form's. -/
theorem operand_of_fetch_trap (h : s.fetch = .trap t) : t.operand ≤ 3 := by
  rcases fetch_trap_cases h with hw | ⟨f, hlen, rfl⟩
  · exact decodeWord_trapsWithin _ _ t hw
  · have hf := length_le_longestInstr f
    rw [longestInstr] at hf
    show s.cfg.memSize - s.pc ≤ 3
    omega

end

/-! Values that fit (10_state.md R33). -/

theorem readCell_fits {s : State} (hs : s.Inv) (a : Nat) : s.cfg.variant.fits (s.readCell a) := by
  rcases s.mem.read_mem a with h | h
  · rw [State.readCell, h]
    exact s.cfg.variant.fits_zero
  · exact hs.memFits _ h

theorem operandWords_fit {s : State} {i : Instr} (hs : s.Inv) (h : s.fetch = .instr i) :
    ∀ w ∈ i.operandWords, s.cfg.variant.fits w := by
  intro w hw
  obtain ⟨-, rest, hwin⟩ := cells_of_fetch_instr h
  obtain ⟨a, rfl⟩ := mem_window (s := s) (x := w) (by rw [hwin]; simp [hw])
  exact readCell_fits hs a

theorem val_fits {s : State} {k : Nat} {a : Src} {x : Int} (hs : s.Inv) (ha : s.cfg.variant.fits a.word)
    (h : s.val k a = .ok x) : s.cfg.variant.fits x := by
  rcases val_cases h with rfl | ⟨l, -, rfl⟩
  · exact ha
  · exact readCell_fits hs l

theorem truthValue_fits (v : Variant) (b : Bool) : v.fits (truthValue b) := by
  cases v <;> cases b <;> decide

/-! Committing and raising keep the invariants. -/

/-- What an effect commits lies within the invariants. -/
structure Effect.Within (e : Effect) (s : State) : Prop where
  wr       : ∀ l v, e.wr = some (l, v) → l < s.cfg.memSize ∧ s.cfg.variant.fits v
  pcMax    : (e.pcNext : Int) ≤ s.cfg.variant.cellMax
  rbFits   : s.cfg.variant.fits e.rbNext
  rbNarrow : s.cfg.variant = .narrow → e.rbNext = 0
  out      : ∀ v, e.out = some v → s.cfg.variant.fits v

theorem advance_within {s : State} (hs : s.Inv) (n : Nat) : (s.advance n).Within s where
  wr := nofun
  pcMax := nextPc_le s n
  rbFits := hs.rbFits
  rbNarrow := hs.rbNarrow
  out := nofun

/-- The entries of memory after a commit are old ones and the one written. -/
theorem mem_commit {s : State} {e : Effect} {c : Nat × Int} (h : c ∈ (s.commit e).mem) : e.wr = some c ∨ c ∈ s.mem := by
  cases hwr : e.wr with
  | none => exact .inr (commit_mem_keep s e hwr ▸ h)
  | some d =>
    rw [commit_mem_write s e d.1 d.2 hwr] at h
    exact (Memory.mem_write h).imp (fun hc => by rw [hc]) id

theorem wf_mem_commit {s : State} (e : Effect) (h : s.mem.wf = true) : (s.commit e).mem.wf = true := by
  cases hwr : e.wr with
  | none => rwa [commit_mem_keep s e hwr]
  | some d =>
    rw [commit_mem_write s e d.1 d.2 hwr]
    exact Memory.wf_write d.1 d.2 h

theorem mem_inq_commit {s : State} {e : Effect} {x : Int} (h : x ∈ (s.commit e).inq) : x ∈ s.inq := by
  cases hp : e.popIn with
  | false => rwa [commit_inq_keep s e hp] at h
  | true =>
    rw [commit_inq_pop s e hp] at h
    exact List.mem_of_mem_tail h

theorem mem_outq_commit {s : State} {e : Effect} {x : Int} (h : x ∈ (s.commit e).outq) :
    x ∈ s.outq ∨ e.out = some x := by
  cases ho : e.out with
  | none => exact .inl (commit_outq_keep s e ho ▸ h)
  | some v =>
    rw [commit_outq_append s e v ho] at h
    rcases List.mem_append.1 h with h | h
    · exact .inl h
    · exact .inr (by rw [List.mem_singleton.1 h])

theorem commit_inv {s : State} {e : Effect} (hs : s.Inv) (he : e.Within s) : (s.commit e).Inv where
  memWf := wf_mem_commit e hs.memWf
  memInside c hc := (mem_commit hc).elim (fun h => (he.wr _ _ h).1) (hs.memInside c)
  memFits c hc := (mem_commit hc).elim (fun h => (he.wr _ _ h).2) (hs.memFits c)
  pcMax := he.pcMax
  rbFits := he.rbFits
  rbNarrow := he.rbNarrow
  inqFits x hx := hs.inqFits x (mem_inq_commit hx)
  outqFits x hx := (mem_outq_commit hx).elim (hs.outqFits x) (he.out x)
  errOk := hs.errOk
  capMax := hs.capMax
  capNarrow := hs.capNarrow

theorem raise_inv {s : State} {t : Trap} (hs : s.Inv) (ht : t.operand ≤ 3) : (s.raise t).Inv :=
  { hs with
    errOk := by
      rintro _ ⟨⟩
      exact ht }

/-! The effect of every instruction whose operand words fit lies within the invariants. -/

section
variable {s : State} {e : Effect} (hs : s.Inv)
include hs

theorem within_of_aluEnding {f : Int → Int → Except Trap Int} {a b : Src} {t : Dst}
    (hf : ∀ x y r, f x y = .ok r → s.cfg.variant.fits r) (h : aluEnding f a b t s = .commit e) : e.Within s := by
  obtain ⟨x, y, l, r, -, -, hl, hr, rfl⟩ := aluEnding_eq_commit_iff.1 h
  refine { advance_within hs 4 with wr := ?_ }
  rintro _ _ ⟨⟩
  exact ⟨loc_lt hl, hf x y r hr⟩

theorem within_of_inpEnding {t : Dst} (h : inpEnding t s = .commit e) : e.Within s := by
  obtain ⟨l, v, q, hl, hq, rfl⟩ := inpEnding_eq_commit_iff.1 h
  refine { advance_within hs 2 with wr := ?_ }
  rintro _ _ ⟨⟩
  exact ⟨loc_lt hl, hs.inqFits v (by simp [hq])⟩

theorem within_of_outEnding {a : Src} (ha : s.cfg.variant.fits a.word) (h : outEnding a s = .commit e) :
    e.Within s := by
  obtain ⟨x, hx, rfl⟩ := outEnding_eq_commit_iff.1 h
  refine { advance_within hs 2 with out := ?_ }
  rintro _ ⟨⟩
  exact val_fits hs ha hx

theorem within_of_jumpEnding {taken : Int → Bool} {c g : Src} (hg : s.cfg.variant.fits g.word)
    (h : jumpEnding taken c g s = .commit e) : e.Within s := by
  obtain ⟨x, y, -, hy, ⟨-, hpos, rfl⟩ | ⟨-, rfl⟩⟩ := jumpEnding_eq_commit_iff.1 h
  · refine { advance_within hs 0 with pcMax := ?_ }
    show (y.toNat : Int) ≤ _
    rw [Int.toNat_of_nonneg hpos]
    exact (val_fits hs hg hy).2
  · exact advance_within hs 3

theorem within_of_arbEnding {d : Src} (h : arbEnding d s = .commit e) : e.Within s := by
  obtain ⟨x, hv, -, hfit, rfl⟩ := arbEnding_eq_commit_iff.1 h
  exact { advance_within hs 2 with
    rbFits := hfit
    rbNarrow := fun hn => nomatch hn.symm.trans hv }

theorem within_of_ending {i : Instr} (hw : ∀ w ∈ i.operandWords, s.cfg.variant.fits w) (h : ending i s = .commit e) :
    e.Within s := by
  cases i with
  | add | mul => exact within_of_aluEnding hs (fun x y r hr => (checkFits_ok hr).2) h
  | lt | eq =>
    refine within_of_aluEnding hs (fun x y r hr => ?_) h
    cases hr
    exact truthValue_fits _ _
  | inp => exact within_of_inpEnding hs h
  | out a => exact within_of_outEnding hs (hw a.word (by simp [Instr.operandWords])) h
  | jt c g | jf c g => exact within_of_jumpEnding hs (hw g.word (by simp [Instr.operandWords])) h
  | arb => exact within_of_arbEnding hs h
  | halt => cases h

/-- A step keeps the invariants (R33). -/
theorem hostStep_inv : (hostStep s).1.Inv := by
  cases hf : s.fetch with
  | latched _ | pastEnd => rw [hostStep, hf]; exact hs
  | trap t => rw [hostStep, hf]; exact raise_inv hs (operand_of_fetch_trap hf)
  | instr i =>
    rw [hostStep_of_fetch_instr hf]
    cases he : ending i s with
    | commit e => exact commit_inv hs (within_of_ending hs (operandWords_fit hs hf) he)
    | wait | halt => exact hs
    | trap t => exact raise_inv hs (operand_of_ending he)

end

theorem hostStep_cfg (s : State) : (hostStep s).1.cfg = s.cfg := by
  rcases hostStep_cases s with ⟨i, e, -, -, hs⟩ | hs | hs | ⟨e, hs⟩ <;> rw [hs]
  exact commit_cfg s e

/-- Settles O20: the step is the state half of the host's. -/
theorem stepKeepsTheInvariants : Obligations.StepKeepsTheInvariants := by
  intro s t hs h
  rw [stepAlwaysAnswersANextState] at h
  cases h
  exact ⟨hostStep_inv hs, hostStep_cfg s⟩

/-- Settles O21, a field at a time. -/
theorem resetMeetsTheInvariants : Obligations.ResetMeetsTheInvariants where
  memWf := rfl
  memInside := nofun
  memFits := nofun
  pcMax := by decide
  rbFits := by decide
  rbNarrow := nofun
  inqFits := nofun
  outqFits := nofun
  errOk := nofun
  capMax := by decide
  capNarrow := nofun

/-- The state of an image whose values and input fit meets the invariants, whatever its size. -/
theorem ofImage_inv {v : Variant} {image input : List Int} (capacity : Nat) (himage : ∀ x ∈ image, v.fits x)
    (hinput : ∀ x ∈ input, v.fits x) : (State.ofImage v image input capacity).Inv where
  memWf := Memory.wf_writeList 0 image rfl
  memInside c hc := by
    rcases Memory.mem_writeList hc with h | ⟨-, hlt, -⟩
    · cases h
    · rw [Nat.zero_add] at hlt
      exact Nat.lt_of_lt_of_le hlt (Nat.le_max_left ..)
  memFits c hc := by
    rcases Memory.mem_writeList hc with h | ⟨-, -, hmem⟩
    · cases h
    · exact himage _ hmem
  pcMax := v.cellMax_nonneg
  rbFits := v.fits_zero
  rbNarrow _ := rfl
  inqFits := hinput
  outqFits := nofun
  errOk := nofun
  capMax := Nat.le_max_right ..
  capNarrow hv := by
    obtain rfl : v = .narrow := hv
    rfl

/-- Settles O23: what construction parses fits, and it refuses an input that does not. -/
theorem constructionMeetsTheInvariants : Obligations.ConstructionMeetsTheInvariants := by
  intro v text input capacity s h
  obtain ⟨image, hp, hinput, rfl⟩ := construct_ok h
  exact ofImage_inv capacity (parseCells_fits hp) hinput

/-! The host's operations. -/

theorem withQueues_inv {s : State} {i o : List Int} (hs : s.Inv) (hi : ∀ x ∈ i, s.cfg.variant.fits x)
    (ho : ∀ x ∈ o, s.cfg.variant.fits x) : (s.withQueues i o).Inv :=
  { hs with inqFits := hi, outqFits := ho }

theorem hostOp_inv {s : State} (op : HostOp) (hs : s.Inv) : (hostOp op s).1.Inv := by
  rcases hostOp_cases op s with ⟨-, h⟩ | ⟨i, o, h, hi, ho, -⟩ <;> rw [h]
  · exact hostStep_inv hs
  · exact withQueues_inv hs (fun x hx => (hi x hx).elim (hs.inqFits x) id) fun x hx => hs.outqFits x (ho x hx)

theorem hostOp_cfg (op : HostOp) (s : State) : (hostOp op s).1.cfg = s.cfg := by
  rcases hostOp_cases op s with ⟨-, h⟩ | ⟨i, o, h, -⟩ <;> rw [h]
  · exact hostStep_cfg s
  · rfl

/-- All a host action can do to the states held: replace one by what an operation makes of it, add a construction or a
clone at the end, or nothing (60_exceptions.md R187 to R193). -/
theorem fleetOp_cases (op : FleetOp) (fleet : List State) :
    (fleetOp op fleet).1 = fleet ∨
    (∃ i hop, ∃ s ∈ fleet, (fleetOp op fleet).1 = fleet.set i (hostOp hop s).1) ∨
    (∃ v text input capacity s, construct v text input capacity = .ok s ∧ (fleetOp op fleet).1 = fleet ++ [s]) ∨
    ∃ s ∈ fleet, (fleetOp op fleet).1 = fleet ++ [s] := by
  cases op with
  | construct v text input capacity =>
    cases hc : construct v text input capacity with
    | error c => exact .inl (by rw [fleetOp, hc])
    | ok s => exact .inr (.inr (.inl ⟨v, text, input, capacity, s, hc, by rw [fleetOp, hc]⟩))
  | on i hop =>
    cases hi : fleet[i]? with
    | none => exact .inl (by rw [fleetOp, hi])
    | some s => exact .inr (.inl ⟨i, hop, s, List.mem_of_getElem? hi, by rw [fleetOp, hi]⟩)
  | clone i =>
    cases hi : fleet[i]? with
    | none => exact .inl (by rw [fleetOp, hi])
    | some s => exact .inr (.inr (.inr ⟨s, List.mem_of_getElem? hi, by rw [fleetOp, hi]⟩))

/-- Settles O22: an operation is a step or a change of the queues, and an action on the states held puts in no others
than what an operation, a construction or a clone gives. -/
theorem hostOperationsKeepTheInvariants : Obligations.HostOperationsKeepTheInvariants := by
  refine ⟨fun s op hs => ⟨hostOp_inv op hs, hostOp_cfg op s⟩, fun fleet op hfleet t ht => ?_⟩
  rcases fleetOp_cases op fleet with h | ⟨i, hop, s, hs, h⟩ | ⟨v, text, input, capacity, s, hc, h⟩ | ⟨s, hs, h⟩ <;>
    rw [h] at ht
  · exact hfleet t ht
  · rcases List.mem_or_eq_of_mem_set ht with ht | rfl
    · exact hfleet t ht
    · exact hostOp_inv hop (hfleet s hs)
  · rcases List.mem_append.1 ht with ht | ht
    · exact hfleet t ht
    · rw [List.mem_singleton.1 ht]
      exact constructionMeetsTheInvariants v text input capacity s hc
  · rcases List.mem_append.1 ht with ht | ht
    · exact hfleet t ht
    · rw [List.mem_singleton.1 ht]
      exact hfleet s hs

/-- Settles O24: a step changes nothing after an error, and the other operations only the queues. -/
theorem onlyQueuesChangeAfterAnError : Obligations.OnlyQueuesChangeAfterAnError := by
  intro s op e herr
  rcases hostOp_cases op s with ⟨-, h⟩ | ⟨i, o, h, -, -, hi, ho⟩
  · rw [h, hostStep_latched herr]
    exact ⟨rfl, rfl, rfl, rfl, rfl, fun _ => rfl, fun _ _ => rfl⟩
  · rw [h]
    exact ⟨rfl, rfl, rfl, rfl, rfl, hi, ho⟩

end Sys2Proof.Machine
end

section
/-! The run loop (60_exceptions.md R192). A run is the first step that does not answer `ok`, after the steps before
it. So what commutes with a step commutes with a run: queueing more input where the step does not wait for it
(40_pipeline.md R95), and the change from the narrow core to the extended one where the step raises no error (R96). -/

open Sys2Proof.Claims

namespace Sys2Proof.Machine

theorem run_succ_ok {s : State} (n : Nat) (h : (hostStep s).2 = .ok) : run (n + 1) s = run n (hostStep s).1 := by
  have hs : hostStep s = ((hostStep s).1, .ok) := Prod.ext rfl h
  rw [run, hs]

theorem run_succ_stop {s : State} (n : Nat) (h : (hostStep s).2 ≠ .ok) : run (n + 1) s = hostStep s := by
  rw [run]
  split
  · next hs => exact absurd (by rw [hs]) h
  · rfl

/-- Settles O52, by induction on the budget: the first step of the run answers `ok`, or is the one that stops it. -/
theorem runStopsAtTheFirstOtherOutcome : Obligations.RunStopsAtTheFirstOtherOutcome := by
  intro n
  induction n with
  | zero => exact fun s => ⟨fun _ => rfl, fun k hk => absurd hk (Nat.not_lt_zero k)⟩
  | succ n ih =>
    refine fun s => ⟨fun hok => ?_, fun k hk hok hstop => ?_⟩
    · rw [run_succ_ok (s := s) n (hok 0 (Nat.succ_pos n)), stepsFrom]
      exact (ih _).1 fun k hk => hok (k + 1) (Nat.succ_lt_succ hk)
    · cases k with
      | zero => exact run_succ_stop n hstop
      | succ k =>
        rw [run_succ_ok (s := s) n (hok 0 (Nat.succ_pos k)), stepsFrom]
        exact (ih _).2 k (Nat.lt_of_succ_lt_succ hk) (fun j hj => hok (j + 1) (Nat.succ_lt_succ hj)) hstop

/-! Input queued early (40_pipeline.md R95). -/

theorem feed_eq_withQueues (s : State) (xs : List Int) : s.feed xs = s.withQueues (s.inq ++ xs) s.outq := rfl

@[simp] theorem feed_inq (s : State) (xs : List Int) : (s.feed xs).inq = s.inq ++ xs := rfl

@[simp] theorem feed_nil (s : State) : s.feed [] = s := by
  rw [feed_eq_withQueues, List.append_nil, withQueues_self]

theorem feed_feed (s : State) (xs ys : List Int) : (s.feed xs).feed ys = s.feed (xs ++ ys) := by
  rw [feed_eq_withQueues, feed_inq, List.append_assoc]
  rfl

/-- IN alone looks at a queue. -/
theorem ending_withQueues {i : Instr} (h : ∀ d, i ≠ .inp d) (s : State) (q o : List Int) :
    ending i (s.withQueues q o) = ending i s := by
  cases i with
  | inp d => exact absurd rfl (h d)
  | _ => rfl

/-- More input changes how an IN ends only where it waits. -/
theorem inpEnding_feed {t : Dst} {s : State} (xs : List Int) (h : inpEnding t s ≠ .wait) :
    inpEnding t (s.feed xs) = inpEnding t s := by
  have hloc : (s.feed xs).loc 1 t = s.loc 1 t := loc_withQueues ..
  rcases inpEnding_cases t s with ⟨e, hl, he⟩ | ⟨l, -, -, he⟩ | ⟨l, v, q, hl, hq, he⟩
  · rw [he, inpEnding_trap (hloc.trans hl)]
  · exact absurd he h
  · rw [he]
    exact inpEnding_eq_commit_iff.2 ⟨l, v, q ++ xs, hloc.trans hl, by rw [feed_inq, hq, List.cons_append], rfl⟩

theorem ending_feed {i : Instr} {s : State} (xs : List Int) (h : ending i s ≠ .wait) :
    ending i (s.feed xs) = ending i s := by
  by_cases hinp : ∃ d, i = .inp d
  · obtain ⟨d, rfl⟩ := hinp
    exact inpEnding_feed xs h
  · exact ending_withQueues (fun d hd => hinp ⟨d, hd⟩) s _ _

/-- What a committed instruction pops is there. -/
theorem inq_ne_nil_of_popIn {i : Instr} {s : State} {e : Effect} (h : ending i s = .commit e) (hp : e.popIn = true) :
    s.inq ≠ [] := by
  cases i with
  | add | mul | lt | eq => simp [(aluEnding_sparesQueues h).1] at hp
  | jt | jf => simp [(jumpEnding_sparesQueues h).1] at hp
  | arb => simp [(arbEnding_sparesQueues h).1] at hp
  | out =>
    obtain ⟨_, -, rfl⟩ := outEnding_eq_commit_iff.1 h
    cases hp
  | inp =>
    obtain ⟨_, _, _, -, hq, -⟩ := inpEnding_eq_commit_iff.1 h
    simp [hq]
  | halt => cases h

theorem commit_feed {s : State} {e : Effect} (xs : List Int) (h : e.popIn = true → s.inq ≠ []) :
    (s.feed xs).commit e = (s.commit e).feed xs := by
  have hinq : ((s.feed xs).commit e).inq = (s.commit e).inq ++ xs := by
    cases hp : e.popIn with
    | false => rw [commit_inq_keep _ e hp, commit_inq_keep _ e hp, feed_inq]
    | true => rw [commit_inq_pop _ e hp, commit_inq_pop _ e hp, feed_inq, List.tail_append_of_ne_nil (h hp)]
  rw [feed_eq_withQueues (s.commit e), ← hinq]
  rfl

/-- A step that does not wait does the same with more input, and leaves that input queued. -/
theorem hostStep_feed {s : State} (xs : List Int) (h : (hostStep s).2 ≠ .wait) :
    hostStep (s.feed xs) = ((hostStep s).1.feed xs, (hostStep s).2) := by
  have hfetch : (s.feed xs).fetch = s.fetch := rfl
  cases hf : s.fetch with
  | latched _ | pastEnd => rw [hostStep, hostStep, hfetch, hf]
  | trap _ => rw [hostStep, hostStep, hfetch, hf]; rfl
  | instr i =>
    rw [hostStep_of_fetch_instr (hfetch.trans hf), hostStep_of_fetch_instr hf]
    rw [hostStep_of_fetch_instr hf] at h
    have hwait : ending i s ≠ .wait := fun he => h (by rw [he, statusOf_wait])
    rw [ending_feed xs hwait]
    cases he : ending i s with
    | commit e => rw [conclude_commit, commit_feed xs (inq_ne_nil_of_popIn he)]; rfl
    | wait => exact absurd he hwait
    | halt | trap _ => rfl

theorem run_feed {n : Nat} {s : State} (xs : List Int) (h : (run n s).2 ≠ .wait) :
    run n (s.feed xs) = ((run n s).1.feed xs, (run n s).2) := by
  induction n generalizing s with
  | zero => rfl
  | succ n ih =>
    by_cases hok : (hostStep s).2 = .ok
    · have hfeed := hostStep_feed xs (s := s) (by simp [hok])
      rw [run_succ_ok n hok] at h ⊢
      rw [run_succ_ok n (by rw [hfeed, hok]), hfeed, ih h]
    · rw [run_succ_stop n hok] at h ⊢
      have hfeed := hostStep_feed xs h
      rw [run_succ_stop n (by rwa [hfeed]), hfeed]

/-- With more input a run that waits comes to where it waited, and goes on from there. -/
theorem run_feed_of_wait {n : Nat} {s t : State} (h : run n s = (t, .wait)) :
    ∃ k, ∀ m xs, run (k + m) (s.feed xs) = run m (t.feed xs) := by
  induction n generalizing s with
  | zero => cases h
  | succ n ih =>
    by_cases hok : (hostStep s).2 = .ok
    · rw [run_succ_ok n hok] at h
      obtain ⟨k, hk⟩ := ih h
      refine ⟨k + 1, fun m xs => ?_⟩
      have hfeed := hostStep_feed xs (s := s) (by simp [hok])
      rw [Nat.add_right_comm, run_succ_ok _ (by rw [hfeed, hok]), hfeed, hk]
    · rw [run_succ_stop n hok] at h
      obtain rfl : s = t := by rw [hostStep_eq_of_wait (by rw [h])] at h; cases h; rfl
      exact ⟨0, fun m xs => by rw [Nat.zero_add]⟩

theorem runFed_cons_wait {n : Nat} {s t : State} (c : List Int) (cs : List (List Int)) (h : run n s = (t, .wait)) :
    runFed n (c :: cs) s = runFed n cs (t.feed c) := by
  rw [runFed, h]

theorem runFed_cons_stop {n : Nat} {s : State} (c : List Int) (cs : List (List Int)) (h : (run n s).2 ≠ .wait) :
    runFed n (c :: cs) s = run n s := by
  rw [runFed]
  split
  · next hr => exact absurd (by rw [hr]) h
  · rfl

/-- Settles O18, by induction on the pieces: each WAIT is passed over by the run that has the rest queued, and the
first run that does not wait leaves the rest unread. -/
theorem feedingEarlyOrPiecewiseIsTheSame : Obligations.FeedingEarlyOrPiecewiseIsTheSame := by
  intro n pieces
  induction pieces with
  | nil => exact fun s => ⟨n, [], by rw [List.flatten_nil, feed_nil, feed_nil]; rfl⟩
  | cons c cs ih =>
    intro s
    by_cases hw : (run n s).2 = .wait
    · have hr : run n s = ((run n s).1, .wait) := Prod.ext rfl hw
      obtain ⟨k, hk⟩ := run_feed_of_wait hr
      obtain ⟨m, left, hm⟩ := ih ((run n s).1.feed c)
      refine ⟨k + m, left, ?_⟩
      rw [runFed_cons_wait c cs hr, hk, List.flatten_cons, ← feed_feed, hm]
    · exact ⟨n, (c :: cs).flatten, by rw [runFed_cons_stop c cs hw, run_feed _ hw]⟩

end Sys2Proof.Machine

/-! The narrow core's runs on the extended core (40_pipeline.md R96). -/

namespace Sys2Proof

theorem Variant.fits_extended {r : Int} (h : Variant.narrow.fits r) : Variant.extended.fits r := by
  have hmin : Variant.extended.cellMin ≤ Variant.narrow.cellMin := by decide
  have hmax : Variant.narrow.cellMax ≤ Variant.extended.cellMax := by decide
  exact ⟨hmin.trans h.1, h.2.trans hmax⟩

theorem Form.legal_extended {f : Form} (h : f.legal .narrow) : f.legal .extended := by
  have hs {m : Mode} (hm : m ∈ Variant.narrow.srcModes) : m ∈ Variant.extended.srcModes := by
    revert hm; cases m <;> decide
  have hd {m : TargetMode} (hm : m ∈ Variant.narrow.dstModes) : m ∈ Variant.extended.dstModes := by
    revert hm; cases m <;> decide
  cases f with
  | add | mul | lt | eq => exact ⟨hs h.1, hs h.2.1, hd h.2.2⟩
  | jt | jf => exact ⟨hs h.1, hs h.2⟩
  | inp => exact hd h
  | out => exact hs h
  | arb => cases h.1
  | halt => trivial

/-- The narrow core has no Relative mode and no ARB (30_encoding.md R67, R68). -/
theorem plain_of_legal_narrow {i : Instr} (h : i.form.legal .narrow) : plain i ∧ ∀ d, i ≠ .arb d := by
  have hs {a : Src} (ha : a.mode ∈ Variant.narrow.srcModes) : srcPlain a := by
    intro hr; rw [hr] at ha; exact absurd ha (by decide)
  have hd {t : Dst} (ht : t.mode ∈ Variant.narrow.dstModes) : dstPlain t := by
    intro hr; rw [hr] at ht; exact absurd ht (by decide)
  cases i with
  | add | mul | lt | eq => exact ⟨⟨hs h.1, hs h.2.1, hd h.2.2⟩, nofun⟩
  | jt | jf => exact ⟨⟨hs h.1, hs h.2⟩, nofun⟩
  | inp => exact ⟨hd h, nofun⟩
  | out => exact ⟨hs h, nofun⟩
  | arb => cases h.1
  | halt => exact ⟨trivial, nofun⟩

end Sys2Proof

namespace Sys2Proof.Machine

theorem val_widen {a : Src} (h : srcPlain a) (s : State) (k : Nat) : s.widen.val k a = s.val k a := by
  cases a with
  | pos n => rfl
  | imm n => rfl
  | rel n => exact absurd rfl h

theorem loc_widen {t : Dst} (h : dstPlain t) (s : State) (k : Nat) : s.widen.loc k t = s.loc k t := by
  cases t with
  | pos n => rfl
  | rel n => exact absurd rfl h

/-- A narrow state whose memory is at most the narrow CELL_MAX, in which the two cores advance `pc` alike. -/
def State.small (s : State) : Prop := s.cfg.variant = .narrow ∧ (s.cfg.memSize : Int) ≤ Variant.narrow.cellMax

section
variable {s : State} (hs : s.small)
include hs

theorem fetch_widen {i : Instr} (h : s.fetch = .instr i) :
    s.widen.fetch = .instr i ∧ plain i ∧ ∀ d, i ≠ .arb d := by
  obtain ⟨herr, hpc, -⟩ := fetch_instr h
  obtain ⟨hw, rest, hwin⟩ := cells_of_fetch_instr h
  rw [hs.1, decodeWord_eq_ok_iff] at hw
  obtain ⟨hlegal, hword⟩ := hw
  refine ⟨fetch_instr_of_decode (s := s.widen) (rest := rest) ⟨herr, hpc⟩ ?_, plain_of_legal_narrow hlegal⟩
  have hwin' : s.widen.window = s.readCell s.pc :: (i.operandWords ++ rest) := hwin
  rw [hwin', decode_cons_eq_ok_iff]
  exact ⟨i.form, (decodeWord_eq_ok_iff ..).2 ⟨Form.legal_extended hlegal, hword⟩, takeOperands_operandWords i rest⟩

/-- Inside so small a memory the advance is exact on both cores. -/
theorem advance_widen {n : Nat} (h : s.pc + n ≤ s.cfg.memSize) : s.widen.advance n = s.advance n := by
  have hmax : Variant.narrow.cellMax ≤ Variant.extended.cellMax := by decide
  obtain ⟨hv, hsize⟩ := hs
  have hsum : ((s.pc + n : Nat) : Int) ≤ Variant.narrow.cellMax := by omega
  have hn : s.nextPc n = s.pc + n := nextPc_eq (by rwa [hv])
  have hw : s.widen.nextPc n = s.pc + n := nextPc_eq (hsum.trans hmax)
  rw [State.advance, State.advance, hn, hw]
  rfl

theorem checkFits_widen {k : Nat} {r x : Int} (h : s.checkFits k r = .ok x) : s.widen.checkFits k r = .ok x := by
  obtain ⟨rfl, hfit⟩ := checkFits_ok h
  rw [hs.1] at hfit
  exact checkFits_of_fits k (Variant.fits_extended hfit)

section
variable {e : Effect}

theorem aluEnding_widen {f g : Int → Int → Except Trap Int} {a b : Src} {t : Dst} (ha : srcPlain a) (hb : srcPlain b)
    (ht : dstPlain t) (hfg : ∀ x y r, f x y = .ok r → g x y = .ok r) (hpc : s.pc + 4 ≤ s.cfg.memSize)
    (h : aluEnding f a b t s = .commit e) : aluEnding g a b t s.widen = .commit e := by
  obtain ⟨x, y, l, r, hx, hy, hl, hr, rfl⟩ := aluEnding_eq_commit_iff.1 h
  refine aluEnding_eq_commit_iff.2 ⟨x, y, l, r, ?_, ?_, ?_, hfg x y r hr, by rw [advance_widen hs hpc]⟩
  · rwa [val_widen ha]
  · rwa [val_widen hb]
  · rwa [loc_widen ht]

theorem jumpEnding_widen {taken : Int → Bool} {c g : Src} (hc : srcPlain c) (hg : srcPlain g)
    (hpc : s.pc + 3 ≤ s.cfg.memSize) (h : jumpEnding taken c g s = .commit e) :
    jumpEnding taken c g s.widen = .commit e := by
  obtain ⟨x, y, hx, hy, htaken⟩ := jumpEnding_eq_commit_iff.1 h
  refine jumpEnding_eq_commit_iff.2 ⟨x, y, ?_, ?_, ?_⟩
  · rwa [val_widen hc]
  · rwa [val_widen hg]
  · rwa [advance_widen hs hpc, advance_widen hs (n := 0) (by omega)]

theorem inpEnding_widen {t : Dst} (ht : dstPlain t) (hpc : s.pc + 2 ≤ s.cfg.memSize)
    (h : inpEnding t s = .commit e) : inpEnding t s.widen = .commit e := by
  obtain ⟨l, v, q, hl, hq, rfl⟩ := inpEnding_eq_commit_iff.1 h
  refine inpEnding_eq_commit_iff.2 ⟨l, v, q, ?_, hq, by rw [advance_widen hs hpc]⟩
  rwa [loc_widen ht]

theorem outEnding_widen {a : Src} (ha : srcPlain a) (hpc : s.pc + 2 ≤ s.cfg.memSize)
    (h : outEnding a s = .commit e) : outEnding a s.widen = .commit e := by
  obtain ⟨x, hx, rfl⟩ := outEnding_eq_commit_iff.1 h
  refine outEnding_eq_commit_iff.2 ⟨x, ?_, by rw [advance_widen hs hpc]⟩
  rwa [val_widen ha]

end

/-- A fetched instruction that commits commits the same on the extended core. -/
theorem ending_widen_commit {i : Instr} {e : Effect} (hf : s.fetch = .instr i) (h : ending i s = .commit e) :
    ending i s.widen = .commit e := by
  have hpc := length_le_of_fetch_instr hf
  obtain ⟨-, hplain, harb⟩ := fetch_widen hs hf
  cases i with
  | add | mul =>
    obtain ⟨ha, hb, ht⟩ := hplain
    exact aluEnding_widen hs ha hb ht (fun _ _ _ => checkFits_widen hs) hpc h
  | lt | eq =>
    obtain ⟨ha, hb, ht⟩ := hplain
    exact aluEnding_widen hs ha hb ht (fun _ _ _ => id) hpc h
  | jt | jf => exact jumpEnding_widen hs hplain.1 hplain.2 hpc h
  | inp => exact inpEnding_widen hs hplain hpc h
  | out => exact outEnding_widen hs hplain hpc h
  | arb d => exact absurd rfl (harb d)
  | halt => cases h

/-- A fetched instruction that raises no error ends alike on both cores. -/
theorem ending_widen {i : Instr} (hf : s.fetch = .instr i) (h : ∀ t, ending i s ≠ .trap t) :
    ending i s.widen = ending i s := by
  cases he : ending i s with
  | commit e => exact ending_widen_commit hs hf he
  | wait =>
    obtain ⟨d, l, rfl, hl, hq⟩ := (ending_eq_wait_iff ..).1 he
    obtain ⟨-, hplain, -⟩ := fetch_widen hs hf
    exact (ending_eq_wait_iff ..).2 ⟨d, l, rfl, (loc_widen hplain s 1).trans hl, hq⟩
  | halt => exact (ending_eq_halt_iff ..).2 ((ending_eq_halt_iff ..).1 he)
  | trap t => exact absurd he (h t)

/-- A step without an error is the extended core's on the same state. -/
theorem hostStep_widen (h : ∀ e, (hostStep s).2 ≠ .error e) :
    hostStep s.widen = ((hostStep s).1.widen, (hostStep s).2) := by
  cases hf : s.fetch with
  | latched e => exact absurd (by rw [hostStep, hf]) (h e)
  | trap t => exact absurd (by rw [hostStep, hf]) (h (s.errInfo t))
  | pastEnd =>
    have herr : s.err = none := err_of_fetch_ne_latched (by simp [hf])
    have hw : s.widen.fetch = .pastEnd := fetch_pastEnd herr ((fetch_pastEnd_iff herr).1 hf)
    rw [hostStep, hostStep, hf, hw]
  | instr i =>
    rw [hostStep_of_fetch_instr hf] at h
    have htrap : ∀ t, ending i s ≠ .trap t := fun t ht => h (s.errInfo t) (by rw [ht, statusOf_trap])
    rw [hostStep_of_fetch_instr (fetch_widen hs hf).1, hostStep_of_fetch_instr hf, ending_widen hs hf htrap]
    cases ending i s <;> rfl

theorem hostStep_small : (hostStep s).1.small := by
  rw [State.small, hostStep_cfg]
  exact hs

end

theorem run_widen {n : Nat} {s : State} (hs : s.small) (h : ∀ e, (run n s).2 ≠ .error e) :
    run n s.widen = ((run n s).1.widen, (run n s).2) := by
  induction n generalizing s with
  | zero => rfl
  | succ n ih =>
    by_cases hok : (hostStep s).2 = .ok
    · have hw := hostStep_widen hs (by simp [hok])
      rw [run_succ_ok n hok] at h ⊢
      rw [run_succ_ok n (by rw [hw, hok]), hw, ih (hostStep_small hs) h]
    · rw [run_succ_stop n hok] at h ⊢
      have hw := hostStep_widen hs h
      rw [run_succ_stop n (by rwa [hw]), hw]

/-- An image on the narrow core is the same image on the extended one, which has asked for no capacity. -/
theorem ofImage_widen (image input : List Int) (capacity : Nat) :
    (State.ofImage .narrow image input capacity).widen = State.ofImage .extended image input 0 := rfl

/-- Settles O19: every step of such a run is the extended core's. -/
theorem narrowRunsOnTheExtendedCore : Obligations.NarrowRunsOnTheExtendedCore := by
  refine ⟨fun n s t st hv hsize hrun hst => ?_, ofImage_widen⟩
  have hw := run_widen (n := n) (s := s) ⟨hv, hsize⟩
  rw [hrun] at hw
  exact hw hst

end Sys2Proof.Machine
end

section
/-! The host's interface (60_exceptions.md R188 to R193, 70_reset_and_hazards.md R200, R208): pushes, pops,
inspection, several machines held, construction, and a table row's word loaded at `pc`. -/

open Sys2Proof.Claims

namespace Sys2Proof.Machine

/-- Settles O50: a push by whether the value fits, a pop by what the queue holds. -/
theorem pushesAppendAndEmptyPopsGiveNone : Obligations.PushesAppendAndEmptyPopsGiveNone := by
  refine fun s => ⟨fun v hfit => ?_, fun v hbig => ?_, fun hempty => ⟨?_, ?_⟩⟩
  · rw [hostOp, State.push, if_pos hfit]
  · rw [hostOp, State.push, if_neg hbig]
  · rcases popFront_cases s with ⟨-, hp⟩ | ⟨_, _, hq, -⟩
    · rw [hostOp, hp]
    · cases hq.symm.trans hempty
  · rcases popBack_cases s with ⟨-, hp⟩ | ⟨_, _, hq, -⟩
    · rw [hostOp, hp]
    · simp [hempty] at hq

/-- Settles O51: each query reads its field. -/
theorem inspectionShowsTheState : Obligations.InspectionShowsTheState :=
  fun _ _ _ => ⟨rfl, fun h => if_pos h, fun h => if_neg (Nat.not_lt.2 h), rfl, rfl, rfl, rfl, rfl, rfl⟩

theorem fleetOp_on {fleet : List State} {i : Nat} {s : State} (op : HostOp) (h : fleet[i]? = some s) :
    (fleetOp (.on i op) fleet).1 = fleet.set i (hostOp op s).1 := by
  rw [fleetOp, h]

theorem fleetOp_clone {fleet : List State} {i : Nat} {s : State} (h : fleet[i]? = some s) :
    (fleetOp (.clone i) fleet).1 = fleet ++ [s] := by
  rw [fleetOp, h]

/-- Settles O53: an operation replaces one element of the list, and a clone adds one at its end. -/
theorem instancesAreIndependent : Obligations.InstancesAreIndependent := by
  intro fleet i j op s h
  obtain ⟨hi, -⟩ := List.getElem?_eq_some_iff.1 h
  rw [fleetOp_on op h, fleetOp_clone h]
  exact ⟨List.getElem?_set_self hi, fun hne => List.getElem?_set_ne (Ne.symm hne), List.getElem?_concat_length,
    fun hj => List.getElem?_append_left hj⟩

/-! Construction (70_reset_and_hazards.md R200, R201). -/

/-- An image's cells stand from 0 on, and the cells after it are padding. -/
theorem readCell_ofImage (v : Variant) (image input : List Int) (capacity a : Nat) :
    (State.ofImage v image input capacity).readCell a = image.getD a 0 := by
  rw [State.readCell, ofImage_mem, Memory.read_writeList, Nat.zero_add, Nat.sub_zero]
  split
  · rfl
  · next h => rw [List.getD_eq_default _ _ (by omega), Memory.read_nil]

theorem ofImage_memSize (v : Variant) (image input : List Int) (capacity : Nat) :
    (State.ofImage v image input capacity).cfg.memSize = sizeFor v image capacity := by
  cases v with
  | narrow => exact ofImage_memSize_narrow image input capacity
  | extended => exact ofImage_memSize_extended image input capacity

theorem construct_of_parse {v : Variant} {text : List Char} {input image : List Int} (capacity : Nat)
    (hp : parseProgram v text = some image) (hinput : ∀ x ∈ input, v.fits x) :
    construct v text input capacity = .ok (State.ofImage v image input capacity) := by
  rw [construct, hp]
  exact if_pos hinput

/-- Settles O54: construction answers the state of its image. -/
theorem constructionSetsTheResetValues : Obligations.ConstructionSetsTheResetValues := by
  intro v text input image capacity hp hinput
  refine ⟨State.ofImage v image input capacity, construct_of_parse capacity hp hinput,
    fun a _ => readCell_ofImage v image input capacity a, fun a ha => ?_, rfl, ofImage_memSize v image input capacity,
    ?_, ?_, rfl, rfl, rfl, rfl, rfl⟩
  · rw [readCell_ofImage, List.getD_eq_default _ _ ha]
  · rintro rfl
    rfl
  · rintro rfl
    rfl

/-- Settles O57: the text and the input are all that construction can refuse. -/
theorem malformedConstructionFails : Obligations.MalformedConstructionFails := by
  intro v text input capacity
  rcases construct_cases v text input capacity with ⟨hp, he⟩ | ⟨hinput, he⟩ | ⟨image, hp, hinput, he⟩
  · simp [hp, he]
  · refine ⟨fun _ => he, fun _ => .inr ?_⟩
    push Not at hinput
    exact hinput
  · rw [hp, he]
    refine ⟨?_, nofun⟩
    rintro (h | ⟨x, hx, hbig⟩)
    · cases h
    · exact absurd (hinput x hx) hbig

/-- Settles O58: the text is parsed to one zero cell, which memory does not list. -/
theorem resetIsAConstruction : Obligations.ResetIsAConstruction :=
  construct_of_parse (v := .extended) (image := [0]) 0 (by decide) nofun

/-! A word loaded at `pc` (log 4). -/

/-- As many cells as the longest instruction has, placed at `pc`, are all that DECODE sees. -/
theorem window_placeAtPc (s : State) {cells : List Int} (h : cells.length = longestInstr) :
    (s.placeAtPc cells).window = cells := by
  have hlen : (s.placeAtPc cells).window.length = cells.length := by
    rw [length_window, h]
    show min longestInstr (max s.cfg.memSize (s.pc + cells.length) - s.pc) = longestInstr
    omega
  refine List.ext_getElem hlen fun k hk hk' => ?_
  rw [window_get]
  show (s.mem.writeList s.pc cells).read (s.pc + k) = cells[k]
  rw [Memory.read_writeList, if_pos (by omega), Nat.add_sub_cancel_left, List.getD_eq_getElem _ _ hk']

/-- A load leaves the machine able to step. -/
theorem ready_placeAtPc (s : State) {cells : List Int} (h : cells ≠ []) : ready (s.placeAtPc cells) := by
  have := List.length_pos_iff.2 h
  refine ⟨rfl, ?_⟩
  show s.pc < max s.cfg.memSize (s.pc + cells.length)
  omega

theorem decode_of_decodeTableWord {nbits w : Nat} {i : Instr} (h : decodeTableWord nbits w = some i) :
    ∃ rest, decode .extended (cellsOfBits Variant.extended.width nbits w) = .ok (i, rest) := by
  unfold decodeTableWord at h
  split at h
  · next hd =>
    cases h
    exact ⟨_, hd⟩
  · cases h

/-- Settles O59: the cells the host reads are the window at `pc` after the load. -/
theorem tableWordIsWhatTheStepRuns : Obligations.TableWordIsWhatTheStepRuns := by
  intro s nbits w i hv h
  obtain ⟨rest, hd⟩ := decode_of_decodeTableWord h
  rw [State.withFetchWord, hv]
  refine step_of_fetch_instr (fetch_instr_of_decode (rest := rest) (ready_placeAtPc s (by simp [cellsOfBits])) ?_)
  rw [window_placeAtPc s rfl]
  exact hv ▸ hd

end Sys2Proof.Machine
end

section
/-! Program text (70_reset_and_hazards.md R207, R208). The parser is inverted from the inside out: the digits, the
integer with its sign, the cell with white space around it, the cells of the pieces, and the pieces between commas,
which are the library's `List.splitOn`. Each lemma is an `↔` between what one function of the parser answers and the
grammar. -/

open Sys2Proof.Claims

namespace Sys2Proof.Machine

/-! Digits. -/

/-- The decimal value of digits read after `acc`. -/
def decimalFrom (acc : Int) (ds : List Char) : Int := ds.foldl (fun acc c => 10 * acc + ((c.toNat : Int) - 48)) acc

/-- `digit` of R207. -/
def isDecimal (c : Char) : Prop := 48 ≤ c.toNat ∧ c.toNat ≤ 57

theorem digitValue_eq_some_iff (c : Char) (d : Nat) : digitValue c = some d ↔ isDecimal c ∧ d = c.toNat - 48 := by
  unfold digitValue
  split
  · next h => simp [isDecimal, h, eq_comm]
  · next h => simp [isDecimal, h]

theorem digitsValue_eq_some_iff (acc : Nat) (ds : List Char) (n : Nat) :
    digitsValue acc ds = some n ↔ (∀ c ∈ ds, isDecimal c) ∧ (n : Int) = decimalFrom acc ds := by
  induction ds generalizing acc with
  | nil => simp [digitsValue, decimalFrom, eq_comm]
  | cons c cs ih =>
    rw [digitsValue, List.forall_mem_cons]
    cases hc : digitValue c with
    | none =>
      have hnot : ¬ isDecimal c := fun h => by
        rw [(digitValue_eq_some_iff c _).2 ⟨h, rfl⟩] at hc
        cases hc
      simp [hnot]
    | some d =>
      obtain ⟨hdec, rfl⟩ := (digitValue_eq_some_iff c d).1 hc
      have hcast : ((10 * acc + (c.toNat - 48) : Nat) : Int) = 10 * acc + ((c.toNat : Int) - 48) := by
        have := hdec.1
        omega
      rw [ih, hcast]
      simp [hdec, decimalFrom]

theorem parseNat_eq_some_iff (ds : List Char) (n : Nat) :
    parseNat ds = some n ↔ ds ≠ [] ∧ (∀ c ∈ ds, isDecimal c) ∧ (n : Int) = decimalFrom 0 ds := by
  cases ds with
  | nil => simp [parseNat]
  | cons c cs =>
    rw [parseNat, digitsValue_eq_some_iff]
    · simp
    · simp

/-! The integer. -/

/-- The characters `"-"?` of R207. -/
def signChars (minus : Bool) : List Char := if minus then ['-'] else []

/-- The value with its sign. -/
def withSign (minus : Bool) (n : Int) : Int := if minus then -n else n

theorem decimalFrom_nonneg {acc : Int} {ds : List Char} (hacc : 0 ≤ acc) (h : ∀ c ∈ ds, isDecimal c) :
    0 ≤ decimalFrom acc ds := by
  induction ds generalizing acc with
  | nil => exact hacc
  | cons c cs ih =>
    obtain ⟨hc, hcs⟩ := List.forall_mem_cons.1 h
    have := hc.1
    exact ih (acc := 10 * acc + ((c.toNat : Int) - 48)) (by omega) hcs

theorem parseNat_of_decimal {ds : List Char} (hne : ds ≠ []) (h : ∀ c ∈ ds, isDecimal c) :
    ∃ n : Nat, parseNat ds = some n ∧ (n : Int) = decimalFrom 0 ds := by
  have hval := Int.toNat_of_nonneg (decimalFrom_nonneg (Int.le_refl 0) h)
  exact ⟨_, (parseNat_eq_some_iff _ _).2 ⟨hne, h, hval⟩, hval⟩

theorem parseInt_minus (cs : List Char) : parseInt ('-' :: cs) = (parseNat cs).map fun n : Nat => -(n : Int) := by
  rw [parseInt]
  cases parseNat cs <;> rfl

/-- Where no minus sign stands first, the digits are read as they are. -/
theorem parseInt_plain {cs : List Char} (h : ∀ ds, cs ≠ '-' :: ds) :
    parseInt cs = (parseNat cs).map fun n : Nat => (n : Int) := by
  unfold parseInt
  split
  · exact absurd rfl (h _)
  · cases parseNat cs <;> rfl

/-- A digit is no minus sign. -/
theorem ne_minus_of_decimal {cs : List Char} (h : ∀ c ∈ cs, isDecimal c) (ds : List Char) : cs ≠ '-' :: ds := by
  rintro rfl
  exact absurd (h '-' (List.mem_cons_self ..)).1 (by decide)

theorem parseInt_eq_some_iff (cs : List Char) (n : Int) :
    parseInt cs = some n ↔ ∃ minus ds, cs = signChars minus ++ ds ∧ ds ≠ [] ∧ (∀ c ∈ ds, isDecimal c) ∧
      n = withSign minus (decimalFrom 0 ds) := by
  constructor
  · intro h
    by_cases hminus : ∃ ds, cs = '-' :: ds
    · obtain ⟨ds, rfl⟩ := hminus
      rw [parseInt_minus] at h
      obtain ⟨m, hm, rfl⟩ := Option.map_eq_some_iff.1 h
      obtain ⟨hne, hdec, hval⟩ := (parseNat_eq_some_iff _ _).1 hm
      exact ⟨true, ds, rfl, hne, hdec, by rw [hval]; rfl⟩
    · rw [parseInt_plain fun ds hds => hminus ⟨ds, hds⟩] at h
      obtain ⟨m, hm, rfl⟩ := Option.map_eq_some_iff.1 h
      obtain ⟨hne, hdec, hval⟩ := (parseNat_eq_some_iff _ _).1 hm
      exact ⟨false, cs, rfl, hne, hdec, hval⟩
  · rintro ⟨minus, ds, rfl, hne, hdec, rfl⟩
    obtain ⟨m, hm, hval⟩ := parseNat_of_decimal hne hdec
    rw [← hval]
    cases minus with
    | true => exact (parseInt_minus ds).trans (by rw [hm]; rfl)
    | false => exact (parseInt_plain (ne_minus_of_decimal hdec)).trans (by rw [hm]; rfl)

/-! White space. -/

theorem isSpace_iff (c : Char) : isSpace c = true ↔ c = ' ' ∨ c = '\t' ∨ c = '\r' ∨ c = '\n' := by
  simp [isSpace, or_assoc]

theorem trimSpace_eq (cs : List Char) : trimSpace cs = (cs.dropWhile isSpace).rdropWhile isSpace := rfl

/-- What `trimSpace` takes off is white space on both sides. -/
theorem exists_spaces_of_trimSpace (cs : List Char) :
    ∃ before after, cs = before ++ trimSpace cs ++ after ∧ (∀ c ∈ before, isSpace c = true) ∧
      ∀ c ∈ after, isSpace c = true := by
  refine ⟨cs.takeWhile isSpace, (cs.dropWhile isSpace).rtakeWhile isSpace, ?_, fun _ => List.mem_takeWhile_imp,
    fun _ => List.mem_rtakeWhile_imp⟩
  rw [trimSpace_eq, List.append_assoc, List.rdropWhile_append_rtakeWhile, List.takeWhile_append_dropWhile]

/-- Spaces are taken off up to the first character that is none. -/
theorem dropWhile_spaces {before mid : List Char} (after : List Char) (hb : ∀ c ∈ before, isSpace c = true)
    (hne : mid ≠ []) (hm : ∀ c ∈ mid, isSpace c = false) :
    (before ++ (mid ++ after)).dropWhile isSpace = mid ++ after := by
  rw [List.dropWhile_append_of_pos hb]
  cases mid with
  | nil => exact absurd rfl hne
  | cons c mid => exact List.dropWhile_cons_of_neg (by simp [hm c (List.mem_cons_self ..)])

theorem trimSpace_of_spaces {before mid after : List Char} (hb : ∀ c ∈ before, isSpace c = true)
    (ha : ∀ c ∈ after, isSpace c = true) (hne : mid ≠ []) (hm : ∀ c ∈ mid, isSpace c = false) :
    trimSpace (before ++ mid ++ after) = mid := by
  have hrev := dropWhile_spaces (before := after.reverse) (mid := mid.reverse) [] (by simpa using ha)
    (by simpa using hne) (by simpa using hm)
  rw [List.append_nil] at hrev
  rw [trimSpace, List.append_assoc, dropWhile_spaces after hb hne hm, List.reverse_append, hrev, List.reverse_reverse]

/-! One cell of the text: an integer that fits, with white space around it. -/

theorem textItem_chars_eq (x : TextItem) : x.chars = x.before ++ (signChars x.minus ++ x.digits) ++ x.after := by
  simp [TextItem.chars, signChars]

theorem textItem_value_eq (x : TextItem) : x.value = withSign x.minus (decimalFrom 0 x.digits) := rfl

theorem textItem_legal_iff (x : TextItem) :
    x.legal ↔ (∀ c ∈ x.before, isSpace c = true) ∧ (∀ c ∈ x.after, isSpace c = true) ∧ x.digits ≠ [] ∧
      ∀ c ∈ x.digits, isDecimal c := by
  simp only [isSpace_iff]
  rfl

/-- Neither a sign nor a digit is white space, nor a comma. -/
theorem ne_of_mem_integer {minus : Bool} {ds : List Char} (h : ∀ c ∈ ds, isDecimal c) {c : Char}
    (hc : c ∈ signChars minus ++ ds) : isSpace c = false ∧ c ≠ ',' := by
  rcases List.mem_append.1 hc with hc | hc
  · cases minus with
    | false => cases hc
    | true =>
      rw [List.mem_singleton.1 hc]
      decide
  · have hdec := h c hc
    constructor
    · rw [Bool.eq_false_iff, Ne, isSpace_iff]
      rintro (rfl | rfl | rfl | rfl) <;> exact absurd hdec (by simp [isDecimal])
    · rintro rfl
      exact absurd hdec (by simp [isDecimal])

theorem parseCell_eq_some_iff (v : Variant) (cs : List Char) (n : Int) :
    parseCell v cs = some n ↔ ∃ x : TextItem, x.legal ∧ x.chars = cs ∧ x.value = n ∧ v.fits n := by
  have hcell : parseCell v cs = some n ↔ parseInt (trimSpace cs) = some n ∧ v.fits n := by
    unfold parseCell
    cases parseInt (trimSpace cs) with
    | none => simp
    | some m =>
      dsimp only
      split
      · next hfit => exact ⟨fun h => ⟨h, by cases h; exact hfit⟩, fun h => h.1⟩
      · next hbig => exact ⟨nofun, fun ⟨h, hfit⟩ => absurd hfit (by cases h; exact hbig)⟩
  rw [hcell, parseInt_eq_some_iff]
  constructor
  · rintro ⟨⟨minus, ds, htrim, hne, hdec, rfl⟩, hfit⟩
    obtain ⟨before, after, hcs, hb, ha⟩ := exists_spaces_of_trimSpace cs
    refine ⟨⟨before, minus, ds, after⟩, (textItem_legal_iff _).2 ⟨hb, ha, hne, hdec⟩, ?_, rfl, hfit⟩
    rw [textItem_chars_eq, ← htrim, ← hcs]
  · rintro ⟨x, hx, rfl, rfl, hfit⟩
    obtain ⟨hb, ha, hne, hdec⟩ := (textItem_legal_iff x).1 hx
    refine ⟨⟨x.minus, x.digits, ?_, hne, hdec, textItem_value_eq x⟩, hfit⟩
    rw [textItem_chars_eq]
    exact trimSpace_of_spaces hb ha (by simp [hne]) fun c hc => (ne_of_mem_integer hdec hc).1

theorem parseCells_eq_some_iff (v : Variant) (ps : List (List Char)) (ns : List Int) :
    parseCells v ps = some ns ↔ ∃ items : List TextItem, (∀ x ∈ items, x.legal) ∧ items.map TextItem.chars = ps ∧
      items.map TextItem.value = ns ∧ ∀ n ∈ ns, v.fits n := by
  induction ps generalizing ns with
  | nil =>
    constructor
    · rintro ⟨⟩
      exact ⟨[], nofun, rfl, rfl, nofun⟩
    · rintro ⟨items, -, hchars, rfl, -⟩
      rw [List.map_eq_nil_iff.1 hchars]
      rfl
  | cons p ps ih =>
    have hcons : parseCells v (p :: ps) = some ns ↔
        ∃ n ns', parseCell v p = some n ∧ parseCells v ps = some ns' ∧ ns = n :: ns' := by
      rw [parseCells]
      cases parseCell v p <;> cases parseCells v ps <;> simp [eq_comm]
    simp only [hcons, parseCell_eq_some_iff, ih]
    constructor
    · rintro ⟨n, ns', ⟨x, hx, rfl, rfl, hfit⟩, ⟨items, hitems, rfl, rfl, hfits⟩, rfl⟩
      exact ⟨x :: items, List.forall_mem_cons.2 ⟨hx, hitems⟩, rfl, rfl, List.forall_mem_cons.2 ⟨hfit, hfits⟩⟩
    · rintro ⟨items, hitems, hchars, rfl, hfits⟩
      obtain ⟨x, items, rfl, rfl, rfl⟩ := List.map_eq_cons_iff.1 hchars
      obtain ⟨hx, hitems⟩ := List.forall_mem_cons.1 hitems
      obtain ⟨hfit, hfits⟩ := List.forall_mem_cons.1 hfits
      exact ⟨x.value, _, ⟨x, hx, rfl, rfl, hfit⟩, ⟨items, hitems, rfl, rfl, hfits⟩, rfl⟩

/-! The pieces between commas. -/

theorem splitOnChar_eq_splitOn (sep : Char) (cs : List Char) :
    (splitOnChar sep cs).1 :: (splitOnChar sep cs).2 = cs.splitOn sep := by
  induction cs with
  | nil => rfl
  | cons c cs ih =>
    rw [List.splitOn, List.splitOnP_cons_eq_if_modifyHead, ← List.splitOn, ← ih, splitOnChar]
    by_cases h : c = sep <;> simp [h]

theorem textOf_eq_intercalate (items : List TextItem) :
    textOf items = [','].intercalate (items.map TextItem.chars) := by
  induction items with
  | nil => rfl
  | cons x items ih =>
    cases items with
    | nil => simp [textOf]
    | cons y ys => simp [textOf, ih, List.intercalate_cons_cons]

theorem comma_not_mem_chars {x : TextItem} (h : x.legal) : ',' ∉ x.chars := by
  obtain ⟨hb, ha, -, hdec⟩ := (textItem_legal_iff x).1 h
  rw [textItem_chars_eq, List.mem_append, List.mem_append]
  rintro ((hc | hc) | hc)
  · exact absurd (hb _ hc) (by decide)
  · exact (ne_of_mem_integer hdec hc).2 rfl
  · exact absurd (ha _ hc) (by decide)

/-- The pieces of a text are the characters of some items exactly where the text is those items, joined by commas. -/
theorem map_chars_eq_splitOn_iff {items : List TextItem} (h : ∀ x ∈ items, x.legal) (text : List Char) :
    items.map TextItem.chars = text.splitOn ',' ↔ items ≠ [] ∧ textOf items = text := by
  constructor
  · intro hchars
    constructor
    · rintro rfl
      exact List.splitOnP_ne_nil _ _ hchars.symm
    · rw [textOf_eq_intercalate, hchars, List.intercalate_splitOn]
  · rintro ⟨hne, rfl⟩
    rw [textOf_eq_intercalate, List.splitOn_intercalate ',' _ (by simpa using hne)]
    intro l hl
    obtain ⟨x, hx, rfl⟩ := List.mem_map.1 hl
    exact comma_not_mem_chars (h x hx)

/-- Settles O56: the pieces between commas are parsed as the items of the grammar. -/
theorem programTextIsReadByItsGrammar : Obligations.ProgramTextIsReadByItsGrammar := by
  intro v text image
  have hparse : parseProgram v text = parseCells v (text.splitOn ',') := by
    rw [← splitOnChar_eq_splitOn]
    rfl
  rw [hparse, parseCells_eq_some_iff]
  constructor
  · rintro ⟨items, hlegal, hchars, hvalues, hfits⟩
    obtain ⟨hne, htext⟩ := (map_chars_eq_splitOn_iff hlegal text).1 hchars
    exact ⟨items, hne, hlegal, htext, hvalues, hfits⟩
  · rintro ⟨items, hne, hlegal, htext, hvalues, hfits⟩
    exact ⟨items, hlegal, (map_chars_eq_splitOn_iff hlegal text).2 ⟨hne, htext⟩, hvalues, hfits⟩

end Sys2Proof.Machine
end
